-- ==== Sys2Proof/Word.lean ====
section
/-! DEFINITION. The words of the block: bytes, the command word, the port widths (spec rules R13, R14). -/

namespace Sys2Proof

/-- A byte: an 8-bit unsigned value, bit 0 least significant (R14). Its `+` is the spec's `+8`, addition modulo 256 (R15). -/
abbrev Byte := BitVec 8

/-- The 10-bit command word `cmd[9:0]` (R13, R56). -/
abbrev CmdWord := BitVec 10

/-- The 16-bit operands `enc_len` and `max_frame_size` (R13, R61). -/
abbrev Half := BitVec 16

end Sys2Proof
end

