-- ==== Sys2Proof/Syntax.lean ====
section
/-! DEFINITION. The four operations of the block: one constructor per row of spec/opcode_table.json (spec rules R2, R57). -/

namespace Sys2Proof

/-- The operations (R57). ENCODE and CHKSUM take their operands from the ports (R58, R61), RESET takes none. -/
inductive Instr where
  /-- `ACCEPT b`: give the parser one byte (R84). -/
  | accept (b : Byte)
  /-- `ENCODE`: build the wire frame of the payload on the ports (R75). -/
  | encode
  /-- `CHKSUM`: the additive checksum of the payload on the ports (R72). -/
  | chksum
  /-- `RESET`: return the parser to its initial state (R101). -/
  | reset
  deriving DecidableEq, Repr

end Sys2Proof
end

