-- ==== Sys2Proof/Decode.lean ====
section
/-! DEFINITION. Decoding a command word and encoding an operation (spec rules R56 to R60). -/

namespace Sys2Proof

/-- Why a word is no operation. -/
inductive DecodeError where
  /-- One of the 765 reserved words 0x101..0x1FF, 0x201..0x2FF, 0x301..0x3FF (R60). -/
  | reservedWord (w : CmdWord)
  /-- A number that does not fit the 10-bit command word (R56). -/
  | wordTooWide (n : Nat)
  deriving DecidableEq, Repr

/-- The field `op = cmd[9:8]` (R56). -/
def opField (w : CmdWord) : BitVec 2 := w.extractLsb' 8 2

/-- The field `imm8 = cmd[7:0]` (R56, R58). -/
def immField (w : CmdWord) : Byte := w.extractLsb' 0 8

/-- An operation whose `imm8` must be 0x00, else the word is reserved (R59). -/
def whenImmZero (w : CmdWord) (i : Instr) : Except DecodeError Instr :=
  if immField w = 0x00#8 then .ok i else .error (.reservedWord w)

/-- The command decoder, total on all 1024 words (R59). -/
def decode (w : CmdWord) : Except DecodeError Instr :=
  if opField w = 0b00#2 then .ok (.accept (immField w))
  else if opField w = 0b01#2 then whenImmZero w .encode
  else if opField w = 0b10#2 then whenImmZero w .chksum
  else whenImmZero w .reset

/-- Decoding any number: one that the 10-bit word cannot carry is rejected (log 9). -/
def decodeNat (n : Nat) : Except DecodeError Instr :=
  if n < 1024 then decode (BitVec.ofNat 10 n) else .error (.wordTooWide n)

/-- The command word of an operation, from the opcode map (R57) and the operand assembly (R58). -/
def encode : Instr → CmdWord
  | .accept b => 0x000#10 ||| b.setWidth 10
  | .encode => 0x100#10
  | .chksum => 0x200#10
  | .reset => 0x300#10

/-- A row of the opcode map (R57). -/
structure OpRow where
  mnemonic : String
  matchBits : CmdWord
  maskBits : CmdWord
  deriving DecidableEq, Repr

/-- Whether a word is one of a row's words: its masked bits are the row's match bits (R57). -/
def OpRow.covers (r : OpRow) (w : CmdWord) : Bool := w &&& r.maskBits == r.matchBits

/-- The opcode map (R57), in its order. -/
def opcodeMap : List OpRow :=
  [⟨"ACCEPT", 0x000#10, 0x300#10⟩, ⟨"ENCODE", 0x100#10, 0x3FF#10⟩,
   ⟨"CHKSUM", 0x200#10, 0x3FF#10⟩, ⟨"RESET", 0x300#10, 0x3FF#10⟩]

/-- The row of an operation (R57). -/
def opcodeRow : Instr → OpRow
  | .accept _ => ⟨"ACCEPT", 0x000#10, 0x300#10⟩
  | .encode => ⟨"ENCODE", 0x100#10, 0x3FF#10⟩
  | .chksum => ⟨"CHKSUM", 0x200#10, 0x3FF#10⟩
  | .reset => ⟨"RESET", 0x300#10, 0x3FF#10⟩

/-- What the decoder reads from a word numbered as spec/opcode_table.json numbers it; bits at or above `nbits` are 0 (log 9). -/
def decodeTableWord (nbits w : Nat) : Option Instr := (decodeNat (w % 2 ^ nbits)).toOption

end Sys2Proof
end

