-- ==== Sys2Proof/Config.lean ====
section
/-! DEFINITION. The fixed parameters of the block (spec rules R8 to R13, R61).
UNVERIFIED (log 8): rules of the spec, whose literals the spec calls unaudited (93_implementation_defined.md I1). -/

namespace Sys2Proof.Config

/-- `START_MARKER`, the first byte of every wire frame (R8). -/
abbrev startMarker : Byte := 0x02#8

/-- `END_MARKER`, the last byte of every wire frame (R9). -/
abbrev endMarker : Byte := 0x03#8

/-- `MIN_LEN`, the least payload length (R10). -/
abbrev minLen : Nat := 1

/-- `MAX_LEN`, the greatest payload length (R10). -/
abbrev maxLen : Nat := 255

/-- `FRAME_OVERHEAD`: START, LEN, CHK and END (R11). -/
abbrev frameOverhead : Nat := 4

/-- `BUF_CAP`, the capacity of the receive buffer (R12). -/
abbrev bufCap : Nat := 255

/-- How many byte lanes the port `enc_payload[0..65534]` has (R61). -/
abbrev encLanes : Nat := 65535

/-- How many byte lanes the port `chk_payload[0..254]` has (R61). -/
abbrev chkLanes : Nat := 255

end Sys2Proof.Config
end

