-- ==== Sys2Proof/Machine/State.lean ====
section
/-! DEFINITION. The state of the block, the host's side of it as plain data, and its reset (spec files 10_state.md and
30_encoding.md sections 3 and 4). -/

namespace Sys2Proof.Machine

/-- The five values of `st` (R22), in the order of their codes (R66). -/
inductive ParserState where
  | awaitingStart
  | awaitingLength
  | awaitingPayload
  | awaitingChecksum
  | awaitingEnd
  deriving DecidableEq, Repr

/-- The five registers of the parser unit (R21). `buf_cnt` is `buf.length` (R23); bytes of the store beyond it are not
represented (R34). -/
structure Parser where
  /-- `st`, the current state (R22). -/
  st : ParserState
  /-- `buf`, the accumulated payload bytes in arrival order (R23). -/
  buf : List Byte
  /-- `exp_len`, the declared expected length (R24). -/
  expLen : Byte
  /-- `acc`, the running checksum accumulator (R25). -/
  acc : Byte
  /-- `rx_chk`, the received checksum (R26). -/
  rxChk : Byte
  deriving DecidableEq, Repr

/-- The values driven on the operand ports (R61). A payload port is written as the list of its lanes from lane 0 on; a lane
past the list's end carries 0x00, so every assignment of the lanes can be written (DESIGN CHOICE, log 3). -/
structure Ports where
  /-- `enc_len[15:0]`. -/
  encLen : Half
  /-- `enc_payload[0..65534][7:0]`. -/
  encPayload : List Byte
  /-- `max_frame_size[15:0]`. -/
  maxFrameSize : Half
  /-- `chk_len[7:0]`. -/
  chkLen : Byte
  /-- `chk_payload[0..254][7:0]`. -/
  chkPayload : List Byte
  deriving DecidableEq, Repr

/-- One operation as the host issues it: the command word (R56) and the port values of its transaction (R31, R61). -/
structure Request where
  cmd : CmdWord
  ports : Ports
  deriving DecidableEq, Repr

/-- What the host does at one step (DESIGN CHOICE, logs 1 and 7). -/
inductive HostEvent where
  /-- It issues one operation (R18, R48). -/
  | issue (r : Request)
  /-- It issues none (R120). -/
  | idle
  /-- It resets the block by power-on (R117). -/
  | powerOn
  deriving DecidableEq, Repr

/-- The reason of a rejection: the only one there is (R64). -/
inductive Reason where
  | checksumOrFramingError
  deriving DecidableEq, Repr

/-- The outcome of one `ACCEPT` (R19, R62). -/
inductive AcceptOutcome where
  | waiting
  | complete (p : List Byte)
  | rejected (r : Reason)
  deriving DecidableEq, Repr

/-- The errors of `ENCODE` (R65, R102). -/
inductive EncError where
  | invalidParameter
  | bufferTooSmall
  deriving DecidableEq, Repr

/-- The result of one `ENCODE`: the frame or an error (R62). -/
inductive EncResult where
  | ok (frame : List Byte)
  | error (e : EncError)
  deriving DecidableEq, Repr

/-- What an operation returns to the host, by operation (R29, R62). -/
inductive Response where
  | accept (o : AcceptOutcome)
  | encode (r : EncResult)
  | chksum (c : Byte)
  | reset
  deriving DecidableEq, Repr

/-- The block and the host's side of it. -/
structure State where
  /-- The parser unit, the only unit that holds state (R20). -/
  parser : Parser
  /-- The operand ports as driven in the transaction being run; not block state (R31). -/
  ports : Ports
  /-- What the host will do, the next event first (log 1). -/
  pending : List HostEvent
  /-- What the last step returned, `none` if it ran no operation; not block state (R29, R62; log 4). -/
  result : Option Response
  deriving DecidableEq, Repr

/-- Faults. `step` raises none: the block has no traps (R104). All are raised by the readers of the result and observation
ports in Machine/Flags.lean, and all are safe: the block never drives these codes (93_implementation_defined.md I3, I4;
log 10). -/
inductive Fault where
  /-- A reader met 11 on `outcome[1:0]` (R63). Raised by `AcceptPorts.read`; safe. -/
  | undrivenOutcomeCode (c : BitVec 2)
  /-- A reader met 01, 10 or 11 on `reason[1:0]` of a rejection (R64); with another outcome it does not look at `reason` (log 15).
  Raised by `AcceptPorts.read`; safe. -/
  | undrivenReasonCode (c : BitVec 2)
  /-- A reader met 11 on `enc_status[1:0]` (R65). Raised by `EncodePorts.read`; safe. -/
  | undrivenStatusCode (c : BitVec 2)
  /-- A reader met 101, 110 or 111 as the code of `st` (R66). Raised by `ParserState.ofCode`; safe. -/
  | unheldStateCode (c : BitVec 3)
  deriving DecidableEq, Repr

/-- Refusals. -/
inductive Refusal where
  /-- An operation of the table that has no meaning yet. Raised by refused arms of `exec`, of which there is none; safe. -/
  | notModelled (mnemonic : String)
  /-- A reserved command word, to which the spec gives no meaning (R60). Raised by `step`; safe: nothing can be proved of a
  run that issues one (log 5). -/
  | reservedWord (w : CmdWord)
  deriving DecidableEq, Repr

/-- The parser after reset (R36, R117). -/
def Parser.reset : Parser := ⟨.awaitingStart, [], 0x00#8, 0x00#8, 0x00#8⟩

/-- The ports before the host drives any (DESIGN CHOICE, log 2). -/
def Ports.reset : Ports := ⟨0#16, [], 0#16, 0#8, []⟩

/-- The machine right after power-on reset: the parser as R36 says, nothing issued yet (log 1), nothing returned (log 4). -/
def State.reset : State := ⟨Parser.reset, Ports.reset, [], none⟩

end Sys2Proof.Machine
end

