-- ==== Sys2Proof/Machine/Operands.lean ====
section
/-! DEFINITION. The operands on the ports: `MemRead` and the payload an operation reads (spec rules R17, R41, R61). -/

namespace Sys2Proof.Machine

/-- Lane `i` of a payload port written as a list of lanes (log 3). -/
def lane (port : List Byte) (i : Nat) : Byte := port.getD i 0x00#8

/-- Lanes 0 .. n-1 of a payload port in index order: `MemRead(port, i)` for 0 ≤ i < n (R41). -/
def lanes (port : List Byte) (n : Nat) : List Byte := (List.range n).map (lane port)

/-- `MemRead(enc_payload, i)`. -/
def Ports.encLane (q : Ports) (i : Nat) : Byte := lane q.encPayload i

/-- `MemRead(chk_payload, i)`. -/
def Ports.chkLane (q : Ports) (i : Nat) : Byte := lane q.chkPayload i

/-- The payload of `ENCODE`: `enc_payload[0 .. enc_len)`, a byte list whose length is the length operand (R61). -/
def Ports.encOperand (q : Ports) : List Byte := lanes q.encPayload q.encLen.toNat

/-- The payload of `CHKSUM`: `chk_payload[0 .. chk_len)` (R61). -/
def Ports.chkOperand (q : Ports) : List Byte := lanes q.chkPayload q.chkLen.toNat

end Sys2Proof.Machine
end

