-- ==== Sys2Proof/Machine/Ops.lean ====
section
/-! DEFINITION. The named operations over the registers (spec rules R17, R32, R38). THERE IS NO EXCEPTION ENTRY AND NO RETURN
FROM ONE to write here: the block has no traps (R104); an error is the result of the operation that finds it (R105). -/

namespace Sys2Proof.Machine

/-- `Clear()`, the receive-buffer clear (R32). -/
def Parser.clear (p : Parser) : Parser :=
  { p with buf := [], acc := 0x00#8, expLen := 0x00#8, rxChk := 0x00#8 }

/-- `st <- v` (R17). -/
def Parser.goTo (p : Parser) (v : ParserState) : Parser := { p with st := v }

/-- `exp_len <- b` (R24). -/
def Parser.setExpLen (p : Parser) (b : Byte) : Parser := { p with expLen := b }

/-- `BufAppend(b)` (R38). Appends in every state, those included that no run reaches (log 6). -/
def Parser.bufAppend (p : Parser) (b : Byte) : Parser := { p with buf := p.buf ++ [b] }

/-- `acc <- acc +8 b` (R25). -/
def Parser.addToAcc (p : Parser) (b : Byte) : Parser := { p with acc := p.acc + b }

/-- `rx_chk <- b` (R26). -/
def Parser.setRxChk (p : Parser) (b : Byte) : Parser := { p with rxChk := b }

/-- The state with another parser. -/
def State.withParser (s : State) (p : Parser) : State := { s with parser := p }

/-- The state with other port values. -/
def State.withPorts (s : State) (q : Ports) : State := { s with ports := q }

/-- The state with other events to come. -/
def State.withPending (s : State) (es : List HostEvent) : State := { s with pending := es }

/-- The state with another result of the step. -/
def State.withResult (s : State) (r : Option Response) : State := { s with result := r }

/-- An operation that returns `r` and writes no block state (R72, R75). -/
def returning (s : State) (r : Response) : Host.Outcome State Fault Refusal :=
  .next (s.withResult (some r))

/-- An operation that leaves the parser at `p` and returns `r` (R84, R101). -/
def returningWith (s : State) (p : Parser) (r : Response) : Host.Outcome State Fault Refusal :=
  .next ((s.withParser p).withResult (some r))

end Sys2Proof.Machine
end

