-- ==== Sys2Proof/Machine/Checksum.lean ====
section
/-! DEFINITION. The checksum unit (spec file 40_checksum.md). -/

namespace Sys2Proof.Machine

/-- `sum8`, the additive checksum: the fold of `+8` from 0x00 (R15, R69). -/
def sum8 (p : List Byte) : Byte := p.foldl (· + ·) 0x00#8

/-- `CHKSUM`: returns the checksum of the payload on its port; writes no state (R72). -/
def execChksum (s : State) : Host.Outcome State Fault Refusal :=
  returning s (.chksum (sum8 s.ports.chkOperand))

end Sys2Proof.Machine
end

