-- ==== Sys2Proof/Machine/Encoder.lean ====
section
/-! DEFINITION. The encoder unit (spec file 41_encoder.md). -/

namespace Sys2Proof.Machine

/-- The wire frame of a payload: START, LEN, the payload, CHK, END, each `MemWrite` in its place (R51, R80). -/
def frameOf (p : List Byte) : List Byte :=
  [Config.startMarker, BitVec.ofNat 8 p.length] ++ p ++ [sum8 p, Config.endMarker]

/-- `ENCODE` on its operands: the length check first, then the capacity check, then the frame (R75 to R78, R80). -/
def encodePayload (q : Ports) : EncResult :=
  if q.encLen.toNat = 0 ∨ Config.maxLen < q.encLen.toNat then .error .invalidParameter
  else if q.maxFrameSize.toNat < q.encLen.toNat + Config.frameOverhead then .error .bufferTooSmall
  else .ok (frameOf q.encOperand)

/-- `ENCODE`: returns the frame or the error; writes no state (R75, R79). -/
def execEncode (s : State) : Host.Outcome State Fault Refusal :=
  returning s (.encode (encodePayload s.ports))

end Sys2Proof.Machine
end

