-- ==== Sys2Proof/Machine/Parser.lean ====
section
/-! DEFINITION. The parser unit (spec file 42_parser.md). -/

namespace Sys2Proof.Machine

/-- The transition function of the parser: its next registers and the outcome it emits (R84). -/
def Parser.accept (p : Parser) (b : Byte) : Parser × AcceptOutcome :=
  match p.st with
  | .awaitingStart =>
    if b = Config.startMarker then (p.clear.goTo .awaitingLength, .waiting)      -- R86
    else (p.clear.goTo .awaitingStart, .waiting)                                 -- R87
  | .awaitingLength =>
    if 0 < b.toNat then ((p.setExpLen b).goTo .awaitingPayload, .waiting)        -- R88
    else (p.clear.goTo .awaitingStart, .waiting)                                 -- R89
  | .awaitingPayload =>
    let q := (p.bufAppend b).addToAcc b
    if q.buf.length = q.expLen.toNat then (q.goTo .awaitingChecksum, .waiting)   -- R91
    else (q.goTo .awaitingPayload, .waiting)                                     -- R90
  | .awaitingChecksum => ((p.setRxChk b).goTo .awaitingEnd, .waiting)            -- R92
  | .awaitingEnd =>
    if b = Config.endMarker ∧ p.rxChk = p.acc then
      (p.clear.goTo .awaitingStart, .complete p.buf)                             -- R93
    else (p.clear.goTo .awaitingStart, .rejected .checksumOrFramingError)        -- R94

/-- `ACCEPT b`: one transition; returns its outcome (R84). -/
def execAccept (b : Byte) (s : State) : Host.Outcome State Fault Refusal :=
  returningWith s (s.parser.accept b).1 (.accept (s.parser.accept b).2)

/-- `RESET`: `Clear(); st <- AwaitingStart`; emits no outcome (R101). -/
def execReset (s : State) : Host.Outcome State Fault Refusal :=
  returningWith s (s.parser.clear.goTo .awaitingStart) .reset

/-- The parser fed a byte sequence, one `ACCEPT` a byte: its registers at the end and the outcomes in order (R68). -/
def Parser.feed (p : Parser) : List Byte → Parser × List AcceptOutcome
  | [] => (p, [])
  | b :: bs => (((p.accept b).1.feed bs).1, (p.accept b).2 :: ((p.accept b).1.feed bs).2)

end Sys2Proof.Machine
end

