-- ==== Sys2Proof/Machine/Dispatch.lean ====
section
/-! DEFINITION. The meaning of every operation, one arm per constructor of Instr. -/

namespace Sys2Proof.Machine

def exec (i : Instr) (s : State) : Host.Outcome State Fault Refusal :=
  match i with
  | .accept b => Sys2Proof.Machine.execAccept b s
  | .encode => Sys2Proof.Machine.execEncode s
  | .chksum => Sys2Proof.Machine.execChksum s
  | .reset => Sys2Proof.Machine.execReset s

end Sys2Proof.Machine
end

