-- ==== Sys2Proof/Machine/Fetch.lean ====
section
/-! DEFINITION. Taking the host's next event (spec rules R18, R48, R117, R120). The block fetches no program (R2, R28): the next
command word is the one the host issues next (log 1). -/

namespace Sys2Proof.Machine

/-- The transaction of a request begins: its port values are driven, and no result stands yet (R31, R62). -/
def State.beginRequest (s : State) (r : Request) (rest : List HostEvent) : State :=
  ((s.withPorts r.ports).withPending rest).withResult none

/-- A step with no operation: no block state changes (R120); no result stands after it (log 4). -/
def State.idleStep (s : State) (rest : List HostEvent) : State :=
  (s.withPending rest).withResult none

/-- A power-on reset: the parser takes its reset values (R36, R117); what the host will do next is the host's (log 7). -/
def State.powerOnStep (s : State) (rest : List HostEvent) : State :=
  ((s.withParser Parser.reset).withPending rest).withResult none

/-- The next event, taken: the command word it issues, if it issues one, and the state in which that word runs. -/
def fetch (s : State) : Option CmdWord × State :=
  match s.pending with
  | [] => (none, s.idleStep [])
  | .idle :: rest => (none, s.idleStep rest)
  | .powerOn :: rest => (none, s.powerOnStep rest)
  | .issue r :: rest => (some r.cmd, s.beginRequest r rest)

/-- The host issues the word `w`, with the port values now driven, before all it would do otherwise. -/
def State.issueFirst (s : State) (w : CmdWord) : State :=
  s.withPending (.issue ⟨w, s.ports⟩ :: s.pending)

end Sys2Proof.Machine
end

