-- ==== Sys2Proof/Machine/Step.lean ====
section
/-! DEFINITION. One step: the host's next event is served, whole (spec rules R18, R48, R59, R60). -/

namespace Sys2Proof.Machine

/-- One step of the block. A reserved word is refused: no state is written, no result is returned, and the run stays refused
(R60; log 5). -/
def step (s : State) : Host.Outcome State Fault Refusal :=
  match fetch s with
  | (none, t) => .next t
  | (some w, t) =>
    match decode w with
    | .ok i => exec i t
    | .error _ => .refused (.reservedWord w)

/-- The state in which the very next step runs the word `w` of spec/opcode_table.json: the host issues its low ten bits first,
with the port values now driven (logs 1 and 9). -/
def State.withFetchWord (s : State) (nbits w : Nat) : State :=
  s.issueFirst (BitVec.ofNat 10 (w % 2 ^ nbits))

end Sys2Proof.Machine
end

