-- ==== Sys2Proof/Machine/Assembler.lean ====
section
/-! DEFINITION. The assembler syntax of the spec's programs and its pseudo-operations (spec rules R67, R68): what the host does
for each line. -/

namespace Sys2Proof.Machine

/-- One line of assembler (R67, R68). -/
inductive AsmLine where
  | accept (b : Byte)
  | encode (p : List Byte) (m : Half)
  | chksum (p : List Byte)
  | reset
  /-- `FEED b0, ..., bk`. -/
  | feed (bs : List Byte)
  /-- `FEED @frame`. -/
  | feedFrame
  deriving DecidableEq, Repr

/-- What lines leave behind for later ones: the ports as last set, and the output frame of the most recent `ENCODE`, empty
if it failed or there was none (log 11). -/
structure AsmContext where
  ports : Ports
  frame : List Byte
  deriving DecidableEq, Repr

/-- `enc_payload` set to a list and `enc_len` to its length, `max_frame_size` set to `m` (R67). -/
def Ports.setEncode (q : Ports) (p : List Byte) (m : Half) : Ports :=
  { q with encPayload := p, encLen := BitVec.ofNat 16 p.length, maxFrameSize := m }

/-- `chk_payload` set to a list and `chk_len` to its length (R67). -/
def Ports.setChksum (q : Ports) (p : List Byte) : Ports :=
  { q with chkPayload := p, chkLen := BitVec.ofNat 8 p.length }

/-- The output frame of an encoder result; none if it failed (R68). -/
def EncResult.frameOut : EncResult → List Byte
  | .ok f => f
  | .error _ => []

/-- One `ACCEPT` a byte, in order (R68). -/
def feedEvents (q : Ports) (bs : List Byte) : List HostEvent :=
  bs.map fun b => .issue ⟨encode (.accept b), q⟩

/-- The host's events for one line, and the context after it (R67, R68). -/
def AsmLine.expand (c : AsmContext) : AsmLine → AsmContext × List HostEvent
  | .accept b => (c, feedEvents c.ports [b])
  | .encode p m =>
    (⟨c.ports.setEncode p m, (encodePayload (c.ports.setEncode p m)).frameOut⟩,
      [.issue ⟨Sys2Proof.encode .encode, c.ports.setEncode p m⟩])
  | .chksum p => (⟨c.ports.setChksum p, c.frame⟩, [.issue ⟨Sys2Proof.encode .chksum, c.ports.setChksum p⟩])
  | .reset => (c, [.issue ⟨Sys2Proof.encode .reset, c.ports⟩])
  | .feed bs => (c, feedEvents c.ports bs)
  | .feedFrame => (c, feedEvents c.ports c.frame)

/-- The host's events for a list of lines, in order. -/
def assemble (c : AsmContext) : List AsmLine → List HostEvent
  | [] => []
  | a :: as => (a.expand c).2 ++ assemble (a.expand c).1 as

end Sys2Proof.Machine
end

