-- ==== Sys2Proof/Machine/Flags.lean ====
section
/-! DEFINITION. THE BLOCK HAS NO FLAGS (spec rule R29). What stands in their place are the codes on the result ports and on the
observation port (R35, R62 to R66), and the readers of those ports (93_implementation_defined.md I3, I4). Lanes that R62 leaves
unspecified do not exist here (log 14). -/

namespace Sys2Proof.Machine

/-- The code of `st` on the observation port (R66). -/
def ParserState.code : ParserState → BitVec 3
  | .awaitingStart => 0b000#3
  | .awaitingLength => 0b001#3
  | .awaitingPayload => 0b010#3
  | .awaitingChecksum => 0b011#3
  | .awaitingEnd => 0b100#3

/-- Reading a code of `st`; 101, 110 and 111 are never held, and a reader that meets one faults (R66, I4; log 10). -/
def ParserState.ofCode (c : BitVec 3) : Except Fault ParserState :=
  if c = 0b000#3 then .ok .awaitingStart
  else if c = 0b001#3 then .ok .awaitingLength
  else if c = 0b010#3 then .ok .awaitingPayload
  else if c = 0b011#3 then .ok .awaitingChecksum
  else if c = 0b100#3 then .ok .awaitingEnd
  else .error (.unheldStateCode c)

/-- The read-only observation port (R35). -/
structure Observation where
  st : BitVec 3
  bufCnt : Byte
  expLen : Byte
  acc : Byte
  rxChk : Byte
  deriving DecidableEq, Repr

/-- What the observation port shows (R35); reading it changes nothing. -/
def State.observe (s : State) : Observation :=
  ⟨s.parser.st.code, BitVec.ofNat 8 s.parser.buf.length, s.parser.expLen, s.parser.acc, s.parser.rxChk⟩

/-- The code of an outcome on `outcome[1:0]` (R63). -/
def AcceptOutcome.code : AcceptOutcome → BitVec 2
  | .waiting => 0b00#2
  | .complete _ => 0b01#2
  | .rejected _ => 0b10#2

/-- The code of a reason on `reason[1:0]` (R64). -/
def Reason.code : Reason → BitVec 2
  | .checksumOrFramingError => 0b00#2

/-- The code of an encoder result on `enc_status[1:0]` (R65). -/
def EncResult.code : EncResult → BitVec 2
  | .ok _ => 0b00#2
  | .error .invalidParameter => 0b01#2
  | .error .bufferTooSmall => 0b10#2

/-- The result ports of `ACCEPT` (R62); `outPayload` holds the lanes `out_payload[0 .. out_len)`. -/
structure AcceptPorts where
  outcome : BitVec 2
  reason : BitVec 2
  outLen : Byte
  outPayload : List Byte
  deriving DecidableEq, Repr

/-- What an outcome drives on the result ports (R62, R93, R94). -/
def AcceptOutcome.ports (o : AcceptOutcome) : AcceptPorts :=
  match o with
  | .waiting => ⟨o.code, 0b00#2, 0x00#8, []⟩
  | .complete p => ⟨o.code, 0b00#2, BitVec.ofNat 8 p.length, p⟩
  | .rejected r => ⟨o.code, r.code, 0x00#8, []⟩

/-- Reading the result ports of `ACCEPT`: an `outcome` code that the block never drives faults, and so does such a `reason` code
of a rejection (R63, R64, I3; log 10). DESIGN CHOICE (log 15): a reader looks at `reason` only when `outcome` is 10, so with 00
and 01 it ignores `reason`, of which the spec does not say whether a reader looks at it there. -/
def AcceptPorts.read (q : AcceptPorts) : Except Fault AcceptOutcome :=
  if q.outcome = 0b00#2 then .ok .waiting
  else if q.outcome = 0b01#2 then .ok (.complete (q.outPayload.take q.outLen.toNat))
  else if q.outcome = 0b10#2 then
    if q.reason = 0b00#2 then .ok (.rejected .checksumOrFramingError)
    else .error (.undrivenReasonCode q.reason)
  else .error (.undrivenOutcomeCode q.outcome)

/-- The result ports of `ENCODE` (R62); `frame` holds the lanes `frame[0 .. frame_len)`. -/
structure EncodePorts where
  encStatus : BitVec 2
  frameLen : BitVec 9
  frame : List Byte
  deriving DecidableEq, Repr

/-- What an encoder result drives on the result ports (R62, R79). -/
def EncResult.ports (r : EncResult) : EncodePorts :=
  match r with
  | .ok f => ⟨r.code, BitVec.ofNat 9 f.length, f⟩
  | .error _ => ⟨r.code, 0#9, []⟩

/-- Reading the result ports of `ENCODE`; the code that the block never drives faults (R65, I3; log 10). -/
def EncodePorts.read (q : EncodePorts) : Except Fault EncResult :=
  if q.encStatus = 0b00#2 then .ok (.ok (q.frame.take q.frameLen.toNat))
  else if q.encStatus = 0b01#2 then .ok (.error .invalidParameter)
  else if q.encStatus = 0b10#2 then .ok (.error .bufferTooSmall)
  else .error (.undrivenStatusCode q.encStatus)

end Sys2Proof.Machine
end

