-- ==== Sys2Proof/Machine/Instances.lean ====
section
/-! DEFINITION. Several blocks in one system: each has its own state and they share nothing (spec rule R113; log 12). -/

namespace Sys2Proof.Machine

/-- A system of blocks. -/
structure System where
  blocks : List State
  deriving DecidableEq, Repr

/-- One step of the block `k` of a system (R113). DESIGN CHOICE (log 16): a reserved word issued to one block refuses the step of
the whole system, so the run of the system ends there; the spec does not say whether the refusal mark of R60 is one block's or
the system's. -/
def System.stepAt (y : System) (k : Fin y.blocks.length) : Host.Outcome System Fault Refusal :=
  match step (y.blocks.get k) with
  | .next t => .next ⟨y.blocks.set k t⟩
  | .fault f => .fault f
  | .refused r => .refused r

end Sys2Proof.Machine
end

