-- ==== Sys2Proof/WellFormed.lean ====
section
/-! DEFINITION. Well-formedness: what the host can put on the block's interface (spec rules R56, R61). -/

namespace Sys2Proof

/-- Every operation is well formed: `imm8` is a byte by its type and no other operand stands in the word (R58). -/
def Instr.wf : Instr → Bool
  | .accept _ => true
  | .encode => true
  | .chksum => true
  | .reset => true

namespace Machine

/-- A payload port lists no more lanes than it has (R61). -/
def Ports.wf (q : Ports) : Bool :=
  q.encPayload.length ≤ Config.encLanes && q.chkPayload.length ≤ Config.chkLanes

/-- A request is well formed if its ports are; its word may be reserved (R60). -/
def Request.wf (r : Request) : Bool := r.ports.wf

/-- An event is well formed if the request it issues is. -/
def HostEvent.wf : HostEvent → Bool
  | .issue r => r.wf
  | .idle => true
  | .powerOn => true

/-- A result of the shapes of R62: a complete payload has 1..255 bytes, a frame 5..259 (R10, R52). -/
def Response.wf : Response → Bool
  | .accept (.complete p) => Config.minLen ≤ p.length && p.length ≤ Config.maxLen
  | .accept .waiting => true
  | .accept (.rejected _) => true
  | .encode (.ok f) =>
    Config.minLen + Config.frameOverhead ≤ f.length && f.length ≤ Config.maxLen + Config.frameOverhead
  | .encode (.error _) => true
  | .chksum _ => true
  | .reset => true

end Machine

end Sys2Proof
end

