-- ==== Sys2Proof/Safety.lean ====
section
/-! DEFINITION. What claims are stated with: the invariant of the parser (spec rule R33) and of the machine, and runs with the
results they return. -/

namespace Sys2Proof.Machine

/-- The invariant of the parser registers, row by row (R33), and the bound of the buffer (R23). -/
abbrev Parser.Inv (p : Parser) : Prop :=
  (p.st = .awaitingStart → p.buf = [] ∧ p.expLen = 0#8 ∧ p.acc = 0#8 ∧ p.rxChk = 0#8) ∧
  (p.st = .awaitingLength → p.buf = [] ∧ p.expLen = 0#8 ∧ p.acc = 0#8 ∧ p.rxChk = 0#8) ∧
  (p.st = .awaitingPayload →
    p.buf.length < p.expLen.toNat ∧ 1 ≤ p.expLen.toNat ∧ p.acc = sum8 p.buf ∧ p.rxChk = 0#8) ∧
  (p.st = .awaitingChecksum →
    p.buf.length = p.expLen.toNat ∧ 1 ≤ p.expLen.toNat ∧ p.acc = sum8 p.buf ∧ p.rxChk = 0#8) ∧
  (p.st = .awaitingEnd → p.buf.length = p.expLen.toNat ∧ 1 ≤ p.expLen.toNat ∧ p.acc = sum8 p.buf) ∧
  p.buf.length ≤ Config.bufCap

/-- The invariant of the machine: the parser's, and that ports, events to come and the last result are ones that the interface
can carry. -/
abbrev State.Inv (s : State) : Prop :=
  s.parser.Inv ∧ s.ports.wf = true ∧ (∀ e ∈ s.pending, e.wf = true) ∧ (∀ r ∈ s.result, r.wf = true)

/-- `k` steps, with the results the operations among them returned, in order; it stops at the first fault or refusal. -/
def trace : Nat → State → Host.Outcome (State × List Response) Fault Refusal
  | 0, s => .next (s, [])
  | k + 1, s =>
    match step s with
    | .fault f => .fault f
    | .refused r => .refused r
    | .next t =>
      match trace k t with
      | .fault f => .fault f
      | .refused r => .refused r
      | .next (u, rs) => .next (u, t.result.toList ++ rs)

/-- The requests issue one `ACCEPT` for each byte, in order, with any port values. -/
abbrev AcceptsBytes (reqs : List Request) (bs : List Byte) : Prop :=
  reqs.map Request.cmd = bs.map fun b => encode (.accept b)

/-- Fed the bytes, the parser is back in `AwaitingStart` with a cleared buffer after the last of them and not before (R97). -/
abbrev Parser.BackAtStartAfter (p : Parser) (bs : List Byte) : Prop :=
  (p.feed bs).1 = ⟨.awaitingStart, [], 0#8, 0#8, 0#8⟩ ∧
  ∀ k < bs.length, (p.feed (bs.take k)).1.st ≠ .awaitingStart

/-- Fed the bytes, the parser emits `Waiting` for each but the last, and `o` for the last. -/
abbrev Parser.WaitsThenEmits (p : Parser) (bs : List Byte) (o : AcceptOutcome) : Prop :=
  (p.feed bs).2 = List.replicate (bs.length - 1) .waiting ++ [o]

/-- An event that concerns the parser: a power-on reset, or the issue of an `ACCEPT` or a `RESET`. -/
def HostEvent.concernsParser : HostEvent → Bool
  | .powerOn => true
  | .idle => false
  | .issue r =>
    match decode r.cmd with
    | .ok (.accept _) => true
    | .ok .reset => true
    | .ok .encode => false
    | .ok .chksum => false
    | .error _ => false

/-- A result of the parser unit. -/
def Response.ofParser : Response → Bool
  | .accept _ => true
  | .reset => true
  | .encode _ => false
  | .chksum _ => false

/-- An event that issues no reserved word. -/
def HostEvent.served : HostEvent → Bool
  | .powerOn => true
  | .idle => true
  | .issue r =>
    match decode r.cmd with
    | .ok _ => true
    | .error _ => false

end Sys2Proof.Machine
end

