-- ==== Sys2Proof/Certificates/Slice0/Obligations.lean ====
section
/-! DEFINITION. The statements for the provers. Each docstring names the rules of spec/ it formalises; "derived" says that it
is the spec's own inference or the model's, and rests on the named section. -/

open Sys2Proof Sys2Proof.Machine

/-! ### Encoding -/

/-- R57: each row of the opcode map decodes to its operation, and a word is an operation's exactly when one row, and one
only, covers it. -/
def Obligations.OpcodeRowsDecodeToTheirOperations : Prop :=
  ∀ w : CmdWord,
    (w &&& 0x300#10 = 0x000#10 → decode w = .ok (.accept (w.setWidth 8))) ∧
    (w &&& 0x3FF#10 = 0x100#10 → decode w = .ok .encode) ∧
    (w &&& 0x3FF#10 = 0x200#10 → decode w = .ok .chksum) ∧
    (w &&& 0x3FF#10 = 0x300#10 → decode w = .ok .reset) ∧
    ((opcodeMap.filter fun r => r.covers w).length ≤ 1) ∧
    ((∃ i, decode w = .ok i) ↔ (opcodeMap.filter fun r => r.covers w).length = 1)

/-- R59: what the decoder answers for every word, by its number. -/
def Obligations.DecoderIsTotalOnAllWords : Prop :=
  ∀ w : CmdWord,
    (w.toNat < 0x100 → decode w = .ok (.accept (BitVec.ofNat 8 w.toNat))) ∧
    (w.toNat = 0x100 → decode w = .ok .encode) ∧
    (w.toNat = 0x200 → decode w = .ok .chksum) ∧
    (w.toNat = 0x300 → decode w = .ok .reset) ∧
    (0x100 < w.toNat → w.toNat ≠ 0x200 → w.toNat ≠ 0x300 → decode w = .error (.reservedWord w))

/-- Derived (30_encoding.md section 2; that the mark the run keeps is its refused outcome is the model's reading, log 5, and
the queue of host events its choice, log 1): a reserved word is refused by `step`, and the run stays refused however many
steps it is given; a refused outcome carries no state and no result. The reserved words number 765. -/
def Obligations.ReservedWordIsRefusedForTheRestOfTheRun : Prop :=
  (∀ (s : State) (r : Request) (rest : List HostEvent), s.pending = .issue r :: rest →
    ((0x101 ≤ r.cmd.toNat ∧ r.cmd.toNat ≤ 0x1FF) ∨ (0x201 ≤ r.cmd.toNat ∧ r.cmd.toNat ≤ 0x2FF) ∨
      (0x301 ≤ r.cmd.toNat ∧ r.cmd.toNat ≤ 0x3FF)) →
    ∀ k, Host.Core.run core (k + 1) s = .refused (.reservedWord r.cmd)) ∧
  ((List.range 1024).filter fun n => (decodeNat n).toOption.isNone).length = 765

/-- Derived (30_encoding.md section 2): decoding and encoding agree, both ways, for every word and every operation with every
operand: no bit of an encoding is dropped and every word has at most one meaning. -/
def Obligations.DecodeAndEncodeAgree : Prop :=
  ∀ (w : CmdWord) (i : Instr), i.wf = true ∧ (decode w = .ok i ↔ encode i = w)

/-- Derived (95_test_vectors.md section 2.6): the decode vectors V-D1 to V-D9. -/
def Obligations.DecodeVectors : Prop :=
  decode 0x000#10 = .ok (.accept 0x00#8) ∧ decode 0x002#10 = .ok (.accept 0x02#8) ∧
  decode 0x0FF#10 = .ok (.accept 0xFF#8) ∧ decode 0x100#10 = .ok .encode ∧
  decode 0x101#10 = .error (.reservedWord 0x101#10) ∧ decode 0x200#10 = .ok .chksum ∧
  decode 0x2FF#10 = .error (.reservedWord 0x2FF#10) ∧ decode 0x300#10 = .ok .reset ∧
  decode 0x380#10 = .error (.reservedWord 0x380#10)

/-! ### Steps and runs -/

/-- Derived (00_scope.md section 5, 30_encoding.md section 3; the queue of host events is the model's choice, log 1): when
the host's next event issues a word that decodes to `i`, the step is `exec i` in the state in which the request is taken from
the queue, its ports are driven and no result stands yet. -/
def Obligations.StepRunsTheIssuedOperation : Prop :=
  ∀ (s : State) (r : Request) (rest : List HostEvent) (i : Instr),
    s.pending = .issue r :: rest → decode r.cmd = .ok i →
    step s = exec i { s with ports := r.ports, pending := rest, result := none }

/-- Derived (the model's choice, logs 1 and 9): the table word of an operation decodes to it, and, put where the next step
takes its command, it is run by that step on the ports and the parser as they stand. -/
def Obligations.TableWordRunsNext : Prop :=
  ∀ (s : State) (i : Instr),
    decodeTableWord 16 (encode i).toNat = some i ∧
    step (s.withFetchWord 16 (encode i).toNat) = exec i { s with result := none }

/-- The model's choice (log 1: the host's events are a queue, and a step serves one of them), for the operations taken one at
a time in issue order of 20_memory.md section 3: a step that answers a next state has taken exactly the first event of the
queue, and an empty queue stays empty. -/
def Obligations.StepTakesExactlyOneEvent : Prop :=
  ∀ s t : State, step s = .next t → t.pending = s.pending.tail

/-- Derived (20_memory.md section 3; the queue of host events is the model's, log 1): operations see every earlier change and
nothing of any later operation: a run over `as` and then `bs` is the run over `as` followed by the run over `bs` from where
it ended, and what comes after the events of a run changes neither the parser nor the results. -/
def Obligations.RunsComposeAndIgnoreLaterEvents : Prop :=
  (∀ (j k : Nat) (s t u : State) (rs qs : List Response),
    trace j s = .next (t, rs) → trace k t = .next (u, qs) → trace (j + k) s = .next (u, rs ++ qs)) ∧
  (∀ (s t : State) (es rest rest' : List HostEvent) (rs : List Response),
    trace es.length { s with pending := es ++ rest } = .next (t, rs) →
    t.pending = rest ∧
    trace es.length { s with pending := es ++ rest' } = .next ({ t with pending := rest' }, rs))

/-- Derived (70_reset_and_hazards.md section 1; how the host's idling is written is the model's, logs 1 and 4): through any
number of steps with no operation issued (idle events, or nothing left to do), no result is returned and the parser keeps its
registers, a partial frame included: there is no timeout. -/
def Obligations.IdleTimeChangesNoBlockState : Prop :=
  ∀ (s : State) (k : Nat) (rest : List HostEvent),
    (s.pending = List.replicate k .idle ++ rest →
      ∃ t, trace k s = .next (t, []) ∧ t.parser = s.parser ∧ t.ports = s.ports ∧ t.pending = rest) ∧
    (s.pending = [] →
      ∃ t, trace k s = .next (t, []) ∧ t.parser = s.parser ∧ t.ports = s.ports ∧ t.pending = [])

/-- R117: after power-on reset (the state `State.reset`) and after a `RESET` operation, `st` is `AwaitingStart` and `buf`,
`acc`, `exp_len` and `rx_chk` are cleared. -/
def Obligations.ResetLeavesTheResetValues : Prop :=
  State.reset.parser = ⟨.awaitingStart, [], 0#8, 0#8, 0#8⟩ ∧
  (∀ s : State, ∃ t, exec .reset s = .next t ∧ t.parser = ⟨.awaitingStart, [], 0#8, 0#8, 0#8⟩)

/-- Derived (70_reset_and_hazards.md section 1; a power-on reset in mid-run as an event of the queue is the model's, logs 1
and 7): it gives the parser its reset values, returns no result, and leaves the ports and the events that follow. -/
def Obligations.PowerOnEventResetsTheParser : Prop :=
  ∀ (s : State) (rest : List HostEvent), s.pending = .powerOn :: rest →
    step s = .next { s with parser := ⟨.awaitingStart, [], 0#8, 0#8, 0#8⟩, pending := rest, result := none }

/-- Derived (60_exceptions.md sections 2 and 4; the queue of host events is the model's, log 1): every operation completes,
with a result, in every state; no step faults; and a step is refused exactly when the next event issues a word that is no
operation's. -/
def Obligations.EveryOperationRunsInEveryState : Prop :=
  (∀ (i : Instr) (s : State), ∃ t, exec i s = .next t ∧ t.result.isSome = true) ∧
  (∀ (s : State) (f : Fault), step s ≠ .fault f) ∧
  (∀ (s : State) (x : Refusal), step s = .refused x ↔
    ∃ (r : Request) (rest : List HostEvent), s.pending = .issue r :: rest ∧
      (∀ i, encode i ≠ r.cmd) ∧ x = .reservedWord r.cmd)

/-- Derived (10_state.md section 2; the queue of host events and a power-on reset among them are the model's, logs 1 and 7):
only `ACCEPT`, `RESET` and power-on reset move the parser. -/
def Obligations.OnlyAcceptAndResetsMoveTheParser : Prop :=
  ∀ s t : State, step s = .next t → t.parser ≠ s.parser →
    (∃ rest, s.pending = .powerOn :: rest) ∨
    (∃ r rest, s.pending = .issue r :: rest ∧ (r.cmd = 0x300#10 ∨ r.cmd.toNat < 0x100))

/-- Derived (10_state.md section 2; the queue of host events and the field that holds a result are the model's, logs 1 and
4): no operation reads an earlier result, and none reads an earlier operation's operands. -/
def Obligations.ResultsAndEarlierOperandsAreNeverRead : Prop :=
  (∀ (i : Instr) (s : State) (x : Option Response), exec i { s with result := x } = exec i s) ∧
  (∀ (s : State) (x : Option Response), step { s with result := x } = step s) ∧
  (∀ (s : State) (q : Ports) (r : Request) (rest : List HostEvent), s.pending = .issue r :: rest →
    step { s with ports := q } = step s)

/-- Derived (10_state.md sections 1 and 2): the frame of each operation: none changes the ports or the host's events, and
`ENCODE` and `CHKSUM` leave every register of the parser as it was. -/
def Obligations.OperationsLeaveTheRestUnchanged : Prop :=
  ∀ (i : Instr) (s t : State), exec i s = .next t →
    t.ports = s.ports ∧ t.pending = s.pending ∧
    (i = .encode ∨ i = .chksum →
      t.parser.st = s.parser.st ∧ t.parser.buf = s.parser.buf ∧ t.parser.expLen = s.parser.expLen ∧
      t.parser.acc = s.parser.acc ∧ t.parser.rxChk = s.parser.rxChk)

/-! ### The checksum unit -/

/-- R69: `sum8` is the sum of the bytes as naturals, modulo 256, and the fold of the wrapping addition from 0. -/
def Obligations.SumEightIsTheSumModulo256 : Prop :=
  ∀ p : List Byte,
    (sum8 p).toNat = (p.map BitVec.toNat).sum % 256 ∧ sum8 p = p.foldl (fun a b => a + b) 0x00#8

/-- Derived (40_checksum.md section 1, the laws the spec derives from the definition). -/
def Obligations.LawsOfSumEight : Prop :=
  sum8 [] = 0x00#8 ∧ (∀ b, sum8 [b] = b) ∧
  (∀ p q : List Byte, sum8 (p ++ q) = sum8 p + sum8 q) ∧
  (∀ p q : List Byte, p.Perm q → sum8 p = sum8 q) ∧
  (∀ p : List Byte, sum8 (p ++ [0x00#8]) = sum8 p) ∧
  sum8 (List.replicate 255 0xFF#8) = 0x01#8

/-- R72: `CHKSUM`, word 0x200, returns the sum modulo 256 of the lanes below `chk_len` and writes no state. -/
def Obligations.ChksumReturnsTheSumOfItsPayload : Prop :=
  encode .chksum = 0x200#10 ∧
  ∀ s : State, ∃ c : Byte,
    exec .chksum s = .next { s with result := some (.chksum c) } ∧
    c.toNat = ((List.range s.ports.chkLen.toNat).map fun i => (s.ports.chkLane i).toNat).sum % 256

/-- R81, and for `CHKSUM` 20_memory.md section 1 (how lanes are written is the model's, log 3): lanes of a payload port at or
beyond the length operand are not read: they change no result. -/
def Obligations.LanesBeyondTheLengthAreNotRead : Prop :=
  ∀ (s : State) (q : Ports),
    (q.encLen = s.ports.encLen → q.maxFrameSize = s.ports.maxFrameSize →
      (∀ i < s.ports.encLen.toNat, q.encLane i = s.ports.encLane i) →
      ∃ r, exec .encode s = .next { s with result := some r } ∧
        exec .encode { s with ports := q } = .next { s with ports := q, result := some r }) ∧
    (q.chkLen = s.ports.chkLen → (∀ i < s.ports.chkLen.toNat, q.chkLane i = s.ports.chkLane i) →
      ∃ r, exec .chksum s = .next { s with result := some r } ∧
        exec .chksum { s with ports := q } = .next { s with ports := q, result := some r })

/-! ### The encoder unit -/

/-- R76, R78: with `enc_len` 0 or above 255, `ENCODE` returns `InvalidParameter`, whatever the capacity. -/
def Obligations.EncodeRejectsBadLengths : Prop :=
  ∀ s : State, s.ports.encLen.toNat = 0 ∨ 255 < s.ports.encLen.toNat →
    exec .encode s = .next { s with result := some (.encode (.error .invalidParameter)) }

/-- R77: with `enc_len` in 1..255, `ENCODE` returns `BufferTooSmall` if the capacity is below `enc_len + 4`, and succeeds
otherwise. -/
def Obligations.EncodeChecksTheCapacity : Prop :=
  ∀ s : State, 1 ≤ s.ports.encLen.toNat → s.ports.encLen.toNat ≤ 255 →
    (s.ports.maxFrameSize.toNat < s.ports.encLen.toNat + 4 →
      exec .encode s = .next { s with result := some (.encode (.error .bufferTooSmall)) }) ∧
    (s.ports.encLen.toNat + 4 ≤ s.ports.maxFrameSize.toNat →
      ∃ f, exec .encode s = .next { s with result := some (.encode (.ok f)) })

/-- R80: a successful `ENCODE` returns exactly L + 4 bytes: START, L, the payload lanes in order, their sum modulo 256, END.
-/
def Obligations.EncodeLaysOutTheFrame : Prop :=
  ∀ s : State, 1 ≤ s.ports.encLen.toNat → s.ports.encLen.toNat ≤ 255 →
    s.ports.encLen.toNat + 4 ≤ s.ports.maxFrameSize.toNat →
    ∃ (f : List Byte) (c : Byte), exec .encode s = .next { s with result := some (.encode (.ok f)) } ∧
      f.length = s.ports.encLen.toNat + 4 ∧
      f[0]? = some 0x02#8 ∧
      f[1]? = some (s.ports.encLen.setWidth 8) ∧
      (∀ i < s.ports.encLen.toNat, f[2 + i]? = some (s.ports.encLane i)) ∧
      f[s.ports.encLen.toNat + 2]? = some c ∧
      c.toNat = ((List.range s.ports.encLen.toNat).map fun i => (s.ports.encLane i).toNat).sum % 256 ∧
      f[s.ports.encLen.toNat + 3]? = some 0x03#8

/-- R79: an `ENCODE` that returns an error changes no state but the returned result, whose ports show `frame_len` 0 and no
frame byte. -/
def Obligations.FailedEncodeHasNoEffect : Prop :=
  ∀ s t : State, ∀ e : EncError, exec .encode s = .next t → t.result = some (.encode (.error e)) →
    t = { s with result := t.result } ∧
    (EncResult.error e).ports.frameLen = 0#9 ∧ (EncResult.error e).ports.frame = []

/-- Derived (41_encoder.md section 4): a frame gives back its payload, so different payloads have different frames, whatever
states they are encoded in. -/
def Obligations.FramesGiveBackTheirPayload : Prop :=
  ∀ (s t : State) (f : List Byte), exec .encode s = .next t → t.result = some (.encode (.ok f)) →
    (∃ n : Byte, f[1]? = some n ∧ (f.drop 2).take n.toNat = s.ports.encOperand ∧
      n.toNat = s.ports.encOperand.length) ∧
    (∀ s' t' : State, exec .encode s' = .next t' → t'.result = t.result →
      s'.ports.encOperand = s.ports.encOperand)

/-- Derived (20_memory.md sections 2 and 3, 60_exceptions.md section 1): `ENCODE` and `CHKSUM` depend on their ports alone,
not on the parser or on an earlier error, and issued again with the same operands give the same result. -/
def Obligations.EncodeAndChksumDependOnTheirPortsAlone : Prop :=
  ∀ (i : Instr) (s s' : State), i = .encode ∨ i = .chksum → s.ports = s'.ports →
    ∃ r, exec i s = .next { s with result := some r } ∧ exec i s' = .next { s' with result := some r } ∧
      exec i { s with result := some r } = .next { s with result := some r }

/-! ### The parser unit -/

/-- R86, R87: `ACCEPT` in `AwaitingStart`. The clear changes no value in a state that meets the invariant. -/
def Obligations.AcceptInAwaitingStart : Prop :=
  ∀ (s : State) (b : Byte), s.parser.st = .awaitingStart →
    (b = 0x02#8 → exec (.accept b) s =
      .next { s with parser := ⟨.awaitingLength, [], 0#8, 0#8, 0#8⟩, result := some (.accept .waiting) }) ∧
    (b ≠ 0x02#8 → exec (.accept b) s =
      .next { s with parser := ⟨.awaitingStart, [], 0#8, 0#8, 0#8⟩, result := some (.accept .waiting) }) ∧
    (s.parser.Inv → b = 0x02#8 → exec (.accept b) s =
      .next { s with parser := { s.parser with st := .awaitingLength }, result := some (.accept .waiting) }) ∧
    (s.parser.Inv → b ≠ 0x02#8 → exec (.accept b) s = .next { s with result := some (.accept .waiting) })

/-- R88, R89: `ACCEPT` in `AwaitingLength`: a non-zero byte is the length; a zero byte is absorbed with `Waiting`. -/
def Obligations.AcceptInAwaitingLength : Prop :=
  ∀ (s : State) (b : Byte), s.parser.st = .awaitingLength →
    (b ≠ 0x00#8 → exec (.accept b) s =
      .next { s with parser := { s.parser with st := .awaitingPayload, expLen := b },
                     result := some (.accept .waiting) }) ∧
    (b = 0x00#8 → exec (.accept b) s =
      .next { s with parser := ⟨.awaitingStart, [], 0#8, 0#8, 0#8⟩, result := some (.accept .waiting) }) ∧
    (s.parser.Inv → b = 0x00#8 → exec (.accept b) s =
      .next { s with parser := { s.parser with st := .awaitingStart }, result := some (.accept .waiting) })

/-- Derived (R84, whose pseudocode it follows in every state): `ACCEPT` in `AwaitingPayload`: the byte is appended and added
to the accumulator, and the parser advances once the buffer's length, compared after the append, is the expected length. With
a length below the expected one these are the two cases of row 5; that the pseudocode is followed also where the buffer is
already that long or full, which no run reaches, is the model's reading (DEDUCED, log 6). -/
def Obligations.AcceptInAwaitingPayload : Prop :=
  ∀ (s : State) (b : Byte), s.parser.st = .awaitingPayload →
    (s.parser.buf.length + 1 ≠ s.parser.expLen.toNat → exec (.accept b) s =
      .next { s with parser := { s.parser with buf := s.parser.buf ++ [b], acc := s.parser.acc + b },
                     result := some (.accept .waiting) }) ∧
    (s.parser.buf.length + 1 = s.parser.expLen.toNat → exec (.accept b) s =
      .next { s with parser := { s.parser with st := .awaitingChecksum, buf := s.parser.buf ++ [b],
                                               acc := s.parser.acc + b },
                     result := some (.accept .waiting) })

/-- R92: `ACCEPT` in `AwaitingChecksum` records the byte, whatever it is, and compares nothing. -/
def Obligations.AcceptInAwaitingChecksum : Prop :=
  ∀ (s : State) (b : Byte), s.parser.st = .awaitingChecksum →
    exec (.accept b) s =
      .next { s with parser := { s.parser with st := .awaitingEnd, rxChk := b }, result := some (.accept .waiting) }

/-- R93, R94: `ACCEPT` in `AwaitingEnd`: `Complete` with the whole payload if the byte is END and the checksums agree, else
`Rejected`; the buffer is cleared either way. The ports of a `Complete` show code 01 with the payload and its declared
length, those of a `Rejected` codes 10 and 00. -/
def Obligations.AcceptInAwaitingEnd : Prop :=
  ∀ (s : State) (b : Byte), s.parser.st = .awaitingEnd →
    (b = 0x03#8 → s.parser.rxChk = s.parser.acc → exec (.accept b) s =
      .next { s with parser := ⟨.awaitingStart, [], 0#8, 0#8, 0#8⟩,
                     result := some (.accept (.complete s.parser.buf)) }) ∧
    (s.parser.Inv → s.parser.buf.length = s.parser.expLen.toNat ∧ s.parser.acc = sum8 s.parser.buf ∧
      (AcceptOutcome.complete s.parser.buf).ports = ⟨0b01#2, 0b00#2, s.parser.expLen, s.parser.buf⟩) ∧
    (b ≠ 0x03#8 ∨ s.parser.rxChk ≠ s.parser.acc → exec (.accept b) s =
      .next { s with parser := ⟨.awaitingStart, [], 0#8, 0#8, 0#8⟩,
                     result := some (.accept (.rejected .checksumOrFramingError)) }) ∧
    (AcceptOutcome.rejected .checksumOrFramingError).ports = ⟨0b10#2, 0b00#2, 0x00#8, []⟩

/-- R101: `RESET`, word 0x300, returns all parser registers to their reset values and emits no outcome; in `AwaitingStart` it
changes nothing. -/
def Obligations.ResetReturnsTheParserToItsInitialState : Prop :=
  encode .reset = 0x300#10 ∧
  (∀ s : State, exec .reset s =
    .next { s with parser := ⟨.awaitingStart, [], 0#8, 0#8, 0#8⟩, result := some .reset }) ∧
  (∀ s : State, s.parser.Inv → s.parser.st = .awaitingStart → exec .reset s = .next { s with result := some .reset })

/-- Derived (42_parser.md section 1): every `ACCEPT` emits one outcome, and it is `Waiting` exactly when the parser is not in
`AwaitingEnd`. -/
def Obligations.AcceptEmitsOneOutcome : Prop :=
  ∀ (s : State) (b : Byte), ∃ t o, exec (.accept b) s = .next t ∧ t.result = some (.accept o) ∧
    (o = .waiting ↔ s.parser.st ≠ .awaitingEnd)

/-- Derived (10_state.md section 1): the frame of `ACCEPT`, register by register: each register keeps its value, or is
cleared because the parser is entering or leaving `AwaitingStart`, or is written in the one state that writes it. -/
def Obligations.AcceptWritesEachRegisterOnlyInItsState : Prop :=
  ∀ (s t : State) (b : Byte), exec (.accept b) s = .next t →
    (t.parser.st = .awaitingStart ∨ s.parser.st = .awaitingStart →
      t.parser.buf = [] ∧ t.parser.expLen = 0#8 ∧ t.parser.acc = 0#8 ∧ t.parser.rxChk = 0#8) ∧
    (t.parser.st ≠ .awaitingStart → s.parser.st ≠ .awaitingStart →
      (s.parser.st ≠ .awaitingPayload → t.parser.buf = s.parser.buf ∧ t.parser.acc = s.parser.acc) ∧
      (s.parser.st ≠ .awaitingLength → t.parser.expLen = s.parser.expLen) ∧
      (s.parser.st ≠ .awaitingChecksum → t.parser.rxChk = s.parser.rxChk))

/-- Derived (42_parser.md section 2, 30_encoding.md section 1): past `AwaitingStart` the parser only moves forward until the
attempt ends in `AwaitingStart`, and in the LEN, PAYLOAD and CHK positions it tests no marker: any two bytes (any two
non-zero bytes, for LEN) take it to the same state with the same outcome. -/
def Obligations.BytesInsideAFrameArePositional : Prop :=
  ∀ (p : Parser) (b : Byte),
    ((p.accept b).1.st = .awaitingStart ∨ p.st.code.toNat ≤ (p.accept b).1.st.code.toNat) ∧
    (∀ c : Byte, p.st = .awaitingPayload ∨ p.st = .awaitingChecksum →
      (p.accept b).1.st = (p.accept c).1.st ∧ (p.accept b).2 = (p.accept c).2) ∧
    (∀ c : Byte, p.st = .awaitingLength → b ≠ 0x00#8 → c ≠ 0x00#8 →
      (p.accept b).1.st = .awaitingPayload ∧ (p.accept c).1.st = .awaitingPayload)

/-- Derived (42_parser.md section 2, what `Complete(p)` promises): in a state that meets the invariant, a `Complete(p)` has
the declared length, a received checksum that is `sum8 p`, and an END byte. -/
def Obligations.CompletePayloadIsChecked : Prop :=
  ∀ (s t : State) (b : Byte) (p : List Byte), s.parser.Inv → exec (.accept b) s = .next t →
    t.result = some (.accept (.complete p)) →
    s.parser.st = .awaitingEnd ∧ b = 0x03#8 ∧ p = s.parser.buf ∧ p.length = s.parser.expLen.toNat ∧
    1 ≤ p.length ∧ p.length ≤ 255 ∧ s.parser.rxChk = sum8 p

/-! ### Runs of the parser -/

/-- Derived (30_encoding.md section 5; the queue of host events is the model's, log 1): a run over requests that issue an
`ACCEPT` for each byte of `bs` is the parser fed `bs`: its outcomes in order, its registers, and the events that follow left
alone. -/
def Obligations.AcceptRunsFeedTheParser : Prop :=
  ∀ (s : State) (reqs : List Request) (bs : List Byte) (rest : List HostEvent),
    AcceptsBytes reqs bs → s.pending = reqs.map .issue ++ rest →
    ∃ t, trace bs.length s = .next (t, (s.parser.feed bs).2.map .accept) ∧
      t.parser = (s.parser.feed bs).1 ∧ t.pending = rest

/-- Derived (41_encoder.md section 4, the round-trip law; the queue of host events is the model's, log 1): the frame that
`ENCODE` returns for a payload, fed byte by byte to a parser in `AwaitingStart`, gives `Waiting` for every byte but the last
and `Complete` of that payload for the last, and leaves the parser in `AwaitingStart` with a cleared buffer. -/
def Obligations.EncodedFrameParsesBack : Prop :=
  ∀ e : State, 1 ≤ e.ports.encLen.toNat → e.ports.encLen.toNat ≤ 255 →
    e.ports.encLen.toNat + 4 ≤ e.ports.maxFrameSize.toNat →
    ∃ f, exec .encode e = .next { e with result := some (.encode (.ok f)) } ∧
      ∀ (s : State) (reqs : List Request) (rest : List HostEvent),
        s.parser.st = .awaitingStart → AcceptsBytes reqs f → s.pending = reqs.map .issue ++ rest →
        ∃ t, trace f.length s =
            .next (t, List.replicate (e.ports.encLen.toNat + 3) (.accept .waiting) ++
              [.accept (.complete e.ports.encOperand)]) ∧
          t.parser = ⟨.awaitingStart, [], 0#8, 0#8, 0#8⟩ ∧ t.pending = rest

/-- Derived (42_parser.md section 2, resynchronisation): a valid frame with another CHK byte, or with another END byte, gives
`Waiting` for every byte but the last and `Rejected` for the last; the parser is then in `AwaitingStart` with a cleared
buffer, and a valid frame fed next yields `Complete`. -/
def Obligations.CorruptedChkOrEndIsRejectedThenResynchronises : Prop :=
  ∀ (p : Parser) (m n : List Byte) (chk fin : Byte),
    p.st = .awaitingStart → 1 ≤ m.length → m.length ≤ 255 → 1 ≤ n.length → n.length ≤ 255 →
    (chk ≠ sum8 m ∧ fin = 0x03#8) ∨ (chk = sum8 m ∧ fin ≠ 0x03#8) →
    let bad := [0x02#8, BitVec.ofNat 8 m.length] ++ m ++ [chk, fin]
    p.WaitsThenEmits bad (.rejected .checksumOrFramingError) ∧
    (p.feed bad).1 = ⟨.awaitingStart, [], 0#8, 0#8, 0#8⟩ ∧
    (p.feed bad).1.WaitsThenEmits (frameOf n) (.complete n)

/-- Derived (42_parser.md section 2, noise; restricted as 90_conflicts.md C2 decides): bytes other than 0x02, any number of
them, then a valid frame, give exactly one `Complete`, for the last byte, and no `Rejected`. -/
def Obligations.NoiseThenFrameCompletesOnce : Prop :=
  ∀ (p : Parser) (noise m : List Byte),
    p.st = .awaitingStart → (∀ b ∈ noise, b ≠ 0x02#8) → 1 ≤ m.length → m.length ≤ 255 →
    p.WaitsThenEmits (noise ++ frameOf m) (.complete m) ∧
    (p.feed (noise ++ frameOf m)).1 = ⟨.awaitingStart, [], 0#8, 0#8, 0#8⟩

/-- Derived (42_parser.md section 2, the table of a truncated frame): whatever bytes come next, a parser inside a frame is
back in `AwaitingStart` after exactly the number of bytes the table gives, never more than 258, and only the last emits an
outcome other than `Waiting` (none does for a zero LEN). -/
def Obligations.TruncatedFrameRecoversByCountAlone : Prop :=
  ∀ (p : Parser) (bs : List Byte), p.Inv →
    (p.st = .awaitingLength → bs = [0x00#8] → p.BackAtStartAfter bs ∧ p.WaitsThenEmits bs .waiting) ∧
    (∀ l ds, p.st = .awaitingLength → bs = l :: ds → l ≠ 0x00#8 → ds.length = l.toNat + 2 →
      bs.length ≤ 258 ∧ p.BackAtStartAfter bs ∧ ∃ o, o ≠ .waiting ∧ p.WaitsThenEmits bs o) ∧
    (p.st = .awaitingPayload → bs.length = (p.expLen.toNat - p.buf.length) + 2 →
      bs.length ≤ 257 ∧ p.BackAtStartAfter bs ∧ ∃ o, o ≠ .waiting ∧ p.WaitsThenEmits bs o) ∧
    (p.st = .awaitingChecksum → bs.length = 2 →
      p.BackAtStartAfter bs ∧ ∃ o, o ≠ .waiting ∧ p.WaitsThenEmits bs o) ∧
    (p.st = .awaitingEnd → bs.length = 1 →
      p.BackAtStartAfter bs ∧ ∃ o, o ≠ .waiting ∧ p.WaitsThenEmits bs o)

/-- Derived (42_parser.md sections 1 and 2): the parser never makes a payload up: whatever it has been fed since it was in
`AwaitingStart`, a `Complete(m)` for the last byte means that the bytes fed end in the whole wire frame of `m`. -/
def Obligations.EveryCompleteEndsAFrameOnTheWire : Prop :=
  ∀ (p : Parser) (bs m : List Byte) (os : List AcceptOutcome),
    p.st = .awaitingStart → (p.feed bs).2 = os ++ [.complete m] →
    1 ≤ m.length ∧ m.length ≤ 255 ∧
    ∃ before, bs = before ++ ([0x02#8, BitVec.ofNat 8 m.length] ++ m ++ [sum8 m, 0x03#8])

/-- Derived (40_checksum.md section 2): the checksum of a payload by `CHKSUM`, the CHK byte that `ENCODE` writes for it and
the parser's accumulator once it has taken its bytes are the same. -/
def Obligations.ThreeUnitsComputeOneChecksum : Prop :=
  ∀ (s : State) (m : List Byte), 1 ≤ m.length → m.length ≤ 255 →
    s.ports.encOperand = m → s.ports.chkOperand = m → m.length + 4 ≤ s.ports.maxFrameSize.toNat →
    ∃ (c : Byte) (f : List Byte),
      exec .chksum s = .next { s with result := some (.chksum c) } ∧
      exec .encode s = .next { s with result := some (.encode (.ok f)) } ∧ f[m.length + 2]? = some c ∧
      ((Parser.mk .awaitingPayload [] (BitVec.ofNat 8 m.length) 0#8 0#8).feed m).1 =
        ⟨.awaitingChecksum, m, BitVec.ofNat 8 m.length, c, 0#8⟩

/-! ### The whole machine -/

/-- Derived (10_state.md section 3, the table the spec derives): the reset state meets the invariant. -/
def Obligations.ResetMeetsTheInvariant : Prop := State.reset.Inv

/-- Derived (10_state.md section 3, the table the spec derives): every step keeps the invariant: the parser's registers as
its state has them, and ports, events and result such as the interface can carry. -/
def Obligations.StepKeepsTheInvariant : Prop :=
  ∀ s t : State, s.Inv → step s = .next t → t.Inv

/-- Derived (20_memory.md section 3; the queue of host events is the model's, log 1): an `ENCODE` or `CHKSUM` can swap places
with a neighbouring `ACCEPT` or `RESET`: each returns the same result, and the parser ends the same. -/
def Obligations.NeighboursOfTwoUnitsSwap : Prop :=
  ∀ (s : State) (a b : Request) (rest : List HostEvent),
    (decode a.cmd = .ok .encode ∨ decode a.cmd = .ok .chksum) →
    (decode b.cmd = .ok .reset ∨ ∃ x, decode b.cmd = .ok (.accept x)) →
    ∃ (t u : State) (ra rb : Response),
      trace 2 { s with pending := .issue a :: .issue b :: rest } = .next (t, [ra, rb]) ∧
      trace 2 { s with pending := .issue b :: .issue a :: rest } = .next (u, [rb, ra]) ∧
      t.parser = u.parser ∧ t.pending = rest ∧ u.pending = rest

/-- Derived (20_memory.md section 3 and 10_state.md section 1 for the operations, 70_reset_and_hazards.md section 1 for the
idle steps; the queue of host events is the model's, log 1, and so is a power-on reset in mid-run, log 7): in a run of any
length, the operations of the other units and the idle steps are invisible to the parser: the run without them ends with the
same parser and returns the same results of the parser unit, in the same order. -/
def Obligations.OtherUnitsAreInvisibleToTheParser : Prop :=
  ∀ (s : State) (es rest : List HostEvent), (∀ e ∈ es, e.served = true) →
    ∃ (t u : State) (rs qs : List Response),
      trace es.length { s with pending := es ++ rest } = .next (t, rs) ∧
      trace (es.filter HostEvent.concernsParser).length
        { s with pending := es.filter HostEvent.concernsParser ++ rest } = .next (u, qs) ∧
      t.parser = u.parser ∧ t.pending = u.pending ∧ rs.filter Response.ofParser = qs

/-! ### Codes and ports -/

/-- R63, R64, R65: the codes on the result ports, and the codes never driven there. -/
def Obligations.ResultCodesAreAsTabled : Prop :=
  AcceptOutcome.waiting.ports.outcome = 0b00#2 ∧
  (∀ m, (AcceptOutcome.complete m).ports.outcome = 0b01#2) ∧
  (∀ r, (AcceptOutcome.rejected r).ports.outcome = 0b10#2 ∧ (AcceptOutcome.rejected r).ports.reason = 0b00#2) ∧
  (∀ o : AcceptOutcome, o.ports.outcome ≠ 0b11#2 ∧ o.ports.reason = 0b00#2) ∧
  (∀ f, (EncResult.ok f).ports.encStatus = 0b00#2) ∧
  (EncResult.error .invalidParameter).ports.encStatus = 0b01#2 ∧
  (EncResult.error .bufferTooSmall).ports.encStatus = 0b10#2 ∧
  (∀ r : EncResult, r.ports.encStatus ≠ 0b11#2)

/-- Derived (30_encoding.md section 3, 93_implementation_defined.md section 2; the readers are the model's, log 10): every
result that an operation can return is read back from its ports, every parser state from its code, and a reader faults by
name on the codes 11 of `outcome` and `enc_status`, on a non-zero `reason` of a rejection (with other outcomes it does not
look at `reason`, log 15), and on the state codes from 101 on. -/
def Obligations.ResultPortsReadBack : Prop :=
  (∀ o : AcceptOutcome, (Response.accept o).wf = true → o.ports.read = .ok o) ∧
  (∀ r : EncResult, (Response.encode r).wf = true → r.ports.read = .ok r) ∧
  (∀ q : AcceptPorts, q.outcome = 0b11#2 → q.read = .error (.undrivenOutcomeCode q.outcome)) ∧
  (∀ q : AcceptPorts, q.outcome = 0b10#2 → q.reason ≠ 0b00#2 → q.read = .error (.undrivenReasonCode q.reason)) ∧
  (∀ q : EncodePorts, q.encStatus = 0b11#2 → q.read = .error (.undrivenStatusCode q.encStatus)) ∧
  (∀ (c : BitVec 3) (v : ParserState), ParserState.ofCode c = .ok v ↔ v.code = c) ∧
  (∀ c : BitVec 3, 5 ≤ c.toNat → ParserState.ofCode c = .error (.unheldStateCode c))

/-- R35, R66: the observation port shows the code of `st`, and `buf_cnt`, `exp_len`, `acc` and `rx_chk` as bytes; the codes
of the five states are 000 to 100 in order, and the other three are never held. -/
def Obligations.ObservationPortShowsTheRegisters : Prop :=
  (∀ s : State, s.parser.Inv →
    s.observe.st = s.parser.st.code ∧ s.observe.bufCnt.toNat = s.parser.buf.length ∧
    s.observe.expLen = s.parser.expLen ∧ s.observe.acc = s.parser.acc ∧ s.observe.rxChk = s.parser.rxChk) ∧
  ParserState.awaitingStart.code = 0b000#3 ∧ ParserState.awaitingLength.code = 0b001#3 ∧
  ParserState.awaitingPayload.code = 0b010#3 ∧ ParserState.awaitingChecksum.code = 0b011#3 ∧
  ParserState.awaitingEnd.code = 0b100#3 ∧
  (∀ c : BitVec 3, (∃ v : ParserState, v.code = c) ↔ c.toNat < 5)

/-! ### Several blocks, and the assembler -/

/-- Derived (60_exceptions.md section 5; the system as a list of blocks is the model's, log 12, and so is that a refused step
refuses the whole system, log 16): an operation on one block does not affect another, and its own block moves as it would
alone. -/
def Obligations.BlocksShareNothing : Prop :=
  ∀ (y z : System) (k : Fin y.blocks.length), y.stepAt k = .next z →
    z.blocks.length = y.blocks.length ∧
    (∀ j, j ≠ k.val → z.blocks[j]? = y.blocks[j]?) ∧
    (∃ t, step (y.blocks.get k) = .next t ∧ z.blocks[k.val]? = some t)

/-- R67 (and, beyond it, 30_encoding.md section 5): what the host issues for each line of assembler: the words, the ports
that `ENCODE` and `CHKSUM` set, and the expansion of both forms of `FEED`; a `FEED @frame` after an `ENCODE` that failed
expands to nothing. -/
def Obligations.AssemblerLinesExpandAsWritten : Prop :=
  (∀ (c : AsmContext) (b : Byte), ∃ w : CmdWord, w.toNat = b.toNat ∧
    ((AsmLine.accept b).expand c).2 = [.issue ⟨w, c.ports⟩]) ∧
  (∀ (c : AsmContext) (m : List Byte) (cap : Half), m.length ≤ 65535 →
    ∃ q : Ports, ((AsmLine.encode m cap).expand c).2 = [.issue ⟨0x100#10, q⟩] ∧
      q.encOperand = m ∧ q.encLen.toNat = m.length ∧ q.maxFrameSize = cap) ∧
  (∀ (c : AsmContext) (m : List Byte), m.length ≤ 255 →
    ∃ q : Ports, ((AsmLine.chksum m).expand c).2 = [.issue ⟨0x200#10, q⟩] ∧
      q.chkOperand = m ∧ q.chkLen.toNat = m.length) ∧
  (∀ c : AsmContext, (AsmLine.reset.expand c).2 = [.issue ⟨0x300#10, c.ports⟩]) ∧
  (∀ (c : AsmContext) (bs : List Byte),
    assemble c [.feed bs] = assemble c (bs.map .accept)) ∧
  (∀ (c : AsmContext) (m : List Byte) (cap : Half), 1 ≤ m.length → m.length ≤ 255 → m.length + 4 ≤ cap.toNat →
    assemble c [.encode m cap, .feedFrame] = assemble c [.encode m cap, .feed (frameOf m)]) ∧
  (∀ (c : AsmContext) (m : List Byte) (cap : Half), m.length ≤ 65535 →
    m.length = 0 ∨ 255 < m.length ∨ cap.toNat < m.length + 4 →
    assemble c [.encode m cap, .feedFrame] = assemble c [.encode m cap])
end

