-- ==== Sys2Proof/Laws/Decode.lean ====
section
/-! SUPPORT. What the decoder and the encoder do. -/

namespace Sys2Proof

theorem opField_encode_accept (b : Byte) : opField (encode (.accept b)) = 0b00#2 := by
  revert b; decide

theorem immField_encode_accept (b : Byte) : immField (encode (.accept b)) = b := by
  revert b; decide

/-- A word whose `op` is 00 is the `ACCEPT` of its low byte, and nothing else is (R57). -/
theorem encode_accept_immField (w : CmdWord) (h : opField w = 0b00#2) : encode (.accept (immField w)) = w := by
  revert w; decide

/-- The only words with a given `op` and `imm8` 0x00 (R57). -/
theorem word_of_fields (w : CmdWord) (h : immField w = 0x00#8) :
    (opField w = 0b01#2 → w = 0x100#10) ∧ (opField w = 0b10#2 → w = 0x200#10) ∧
    (opField w = 0b11#2 → w = 0x300#10) := by
  revert w; decide

theorem whenImmZero_ok (w : CmdWord) (i j : Instr) :
    whenImmZero w i = .ok j ↔ immField w = 0x00#8 ∧ i = j := by
  unfold whenImmZero
  split <;> simp_all

/-- An error of the decoder names the word it was given (R60). -/
theorem decode_error_eq {w : CmdWord} {e : DecodeError} (h : decode w = .error e) : e = .reservedWord w := by
  unfold decode whenImmZero at h
  split at h
  · simp at h
  · split at h
    · split at h <;> simp_all
    · split at h
      · split at h <;> simp_all
      · split at h <;> simp_all

/-- A 10-bit word's number decodes as the word (R56). -/
theorem decodeNat_toNat (w : CmdWord) : decodeNat w.toNat = decode w := by
  simp [decodeNat, w.isLt]

end Sys2Proof
end

