-- ==== Sys2Proof/Laws/PerInstr.lean ====
section
/-! SUPPORT. Facts about every operation as syntax, one lemma per constructor. -/

/-- Decoding the word of the operation gives it back. -/
def Sys2Proof.Laws.RoundTrip.Statement (i : Sys2Proof.Instr) : Prop := Sys2Proof.decode (Sys2Proof.encode i) = .ok i

theorem Sys2Proof.Laws.RoundTrip.accept (b : Sys2Proof.Byte) : Sys2Proof.Laws.RoundTrip.Statement (.accept b) := by
  unfold Sys2Proof.Laws.RoundTrip.Statement Sys2Proof.decode
  rw [if_pos (Sys2Proof.opField_encode_accept b), Sys2Proof.immField_encode_accept]

theorem Sys2Proof.Laws.RoundTrip.encode : Sys2Proof.Laws.RoundTrip.Statement .encode := rfl

theorem Sys2Proof.Laws.RoundTrip.chksum : Sys2Proof.Laws.RoundTrip.Statement .chksum := rfl

theorem Sys2Proof.Laws.RoundTrip.reset : Sys2Proof.Laws.RoundTrip.Statement .reset := rfl

/-- The word of the operation is one of its row's words in the opcode map (R57). -/
def Sys2Proof.Laws.InItsRow.Statement (i : Sys2Proof.Instr) : Prop :=
  (Sys2Proof.opcodeRow i).covers (Sys2Proof.encode i) = true ∧ Sys2Proof.opcodeRow i ∈ Sys2Proof.opcodeMap

theorem Sys2Proof.Laws.InItsRow.accept (b : Sys2Proof.Byte) : Sys2Proof.Laws.InItsRow.Statement (.accept b) := by
  refine ⟨?_, by simp [Sys2Proof.opcodeRow, Sys2Proof.opcodeMap]⟩
  revert b; decide

theorem Sys2Proof.Laws.InItsRow.encode : Sys2Proof.Laws.InItsRow.Statement .encode := by
  refine ⟨rfl, by decide⟩

theorem Sys2Proof.Laws.InItsRow.chksum : Sys2Proof.Laws.InItsRow.Statement .chksum := by
  refine ⟨rfl, by decide⟩

theorem Sys2Proof.Laws.InItsRow.reset : Sys2Proof.Laws.InItsRow.Statement .reset := by
  refine ⟨rfl, by decide⟩
end

