-- ==== Sys2Proof/Laws/State.lean ====
section
/-! SUPPORT. Every field of every named update of the parser and of the state, so that no proof unfolds a record update. -/

namespace Sys2Proof.Machine

/-! ### Updates of the parser registers -/

@[simp] theorem Parser.clear_st (x : Parser) : x.clear.st = x.st := rfl
@[simp] theorem Parser.clear_buf (x : Parser) : x.clear.buf = [] := rfl
@[simp] theorem Parser.clear_expLen (x : Parser) : x.clear.expLen = 0x00#8 := rfl
@[simp] theorem Parser.clear_acc (x : Parser) : x.clear.acc = 0x00#8 := rfl
@[simp] theorem Parser.clear_rxChk (x : Parser) : x.clear.rxChk = 0x00#8 := rfl

@[simp] theorem Parser.goTo_st (x : Parser) (v : ParserState) : (x.goTo v).st = v := rfl
@[simp] theorem Parser.goTo_buf (x : Parser) (v : ParserState) : (x.goTo v).buf = x.buf := rfl
@[simp] theorem Parser.goTo_expLen (x : Parser) (v : ParserState) : (x.goTo v).expLen = x.expLen := rfl
@[simp] theorem Parser.goTo_acc (x : Parser) (v : ParserState) : (x.goTo v).acc = x.acc := rfl
@[simp] theorem Parser.goTo_rxChk (x : Parser) (v : ParserState) : (x.goTo v).rxChk = x.rxChk := rfl

@[simp] theorem Parser.setExpLen_st (x : Parser) (b : Byte) : (x.setExpLen b).st = x.st := rfl
@[simp] theorem Parser.setExpLen_buf (x : Parser) (b : Byte) : (x.setExpLen b).buf = x.buf := rfl
@[simp] theorem Parser.setExpLen_expLen (x : Parser) (b : Byte) : (x.setExpLen b).expLen = b := rfl
@[simp] theorem Parser.setExpLen_acc (x : Parser) (b : Byte) : (x.setExpLen b).acc = x.acc := rfl
@[simp] theorem Parser.setExpLen_rxChk (x : Parser) (b : Byte) : (x.setExpLen b).rxChk = x.rxChk := rfl

@[simp] theorem Parser.bufAppend_st (x : Parser) (b : Byte) : (x.bufAppend b).st = x.st := rfl
@[simp] theorem Parser.bufAppend_buf (x : Parser) (b : Byte) : (x.bufAppend b).buf = x.buf ++ [b] := rfl
@[simp] theorem Parser.bufAppend_expLen (x : Parser) (b : Byte) : (x.bufAppend b).expLen = x.expLen := rfl
@[simp] theorem Parser.bufAppend_acc (x : Parser) (b : Byte) : (x.bufAppend b).acc = x.acc := rfl
@[simp] theorem Parser.bufAppend_rxChk (x : Parser) (b : Byte) : (x.bufAppend b).rxChk = x.rxChk := rfl

@[simp] theorem Parser.addToAcc_st (x : Parser) (b : Byte) : (x.addToAcc b).st = x.st := rfl
@[simp] theorem Parser.addToAcc_buf (x : Parser) (b : Byte) : (x.addToAcc b).buf = x.buf := rfl
@[simp] theorem Parser.addToAcc_expLen (x : Parser) (b : Byte) : (x.addToAcc b).expLen = x.expLen := rfl
@[simp] theorem Parser.addToAcc_acc (x : Parser) (b : Byte) : (x.addToAcc b).acc = x.acc + b := rfl
@[simp] theorem Parser.addToAcc_rxChk (x : Parser) (b : Byte) : (x.addToAcc b).rxChk = x.rxChk := rfl

@[simp] theorem Parser.setRxChk_st (x : Parser) (b : Byte) : (x.setRxChk b).st = x.st := rfl
@[simp] theorem Parser.setRxChk_buf (x : Parser) (b : Byte) : (x.setRxChk b).buf = x.buf := rfl
@[simp] theorem Parser.setRxChk_expLen (x : Parser) (b : Byte) : (x.setRxChk b).expLen = x.expLen := rfl
@[simp] theorem Parser.setRxChk_acc (x : Parser) (b : Byte) : (x.setRxChk b).acc = x.acc := rfl
@[simp] theorem Parser.setRxChk_rxChk (x : Parser) (b : Byte) : (x.setRxChk b).rxChk = b := rfl

/-- `Clear(); st <- v` leaves the same registers whatever they were (R32). -/
theorem Parser.clear_goTo (x : Parser) (v : ParserState) : x.clear.goTo v = ⟨v, [], 0x00#8, 0x00#8, 0x00#8⟩ := rfl

/-! ### Updates of the state -/

@[simp] theorem State.withParser_parser (x : State) (p : Parser) : (x.withParser p).parser = p := rfl
@[simp] theorem State.withParser_ports (x : State) (p : Parser) : (x.withParser p).ports = x.ports := rfl
@[simp] theorem State.withParser_pending (x : State) (p : Parser) : (x.withParser p).pending = x.pending := rfl
@[simp] theorem State.withParser_result (x : State) (p : Parser) : (x.withParser p).result = x.result := rfl

@[simp] theorem State.withPorts_parser (x : State) (q : Ports) : (x.withPorts q).parser = x.parser := rfl
@[simp] theorem State.withPorts_ports (x : State) (q : Ports) : (x.withPorts q).ports = q := rfl
@[simp] theorem State.withPorts_pending (x : State) (q : Ports) : (x.withPorts q).pending = x.pending := rfl
@[simp] theorem State.withPorts_result (x : State) (q : Ports) : (x.withPorts q).result = x.result := rfl

@[simp] theorem State.withPending_parser (x : State) (es : List HostEvent) : (x.withPending es).parser = x.parser := rfl
@[simp] theorem State.withPending_ports (x : State) (es : List HostEvent) : (x.withPending es).ports = x.ports := rfl
@[simp] theorem State.withPending_pending (x : State) (es : List HostEvent) : (x.withPending es).pending = es := rfl
@[simp] theorem State.withPending_result (x : State) (es : List HostEvent) : (x.withPending es).result = x.result := rfl

@[simp] theorem State.withResult_parser (x : State) (r : Option Response) : (x.withResult r).parser = x.parser := rfl
@[simp] theorem State.withResult_ports (x : State) (r : Option Response) : (x.withResult r).ports = x.ports := rfl
@[simp] theorem State.withResult_pending (x : State) (r : Option Response) : (x.withResult r).pending = x.pending := rfl
@[simp] theorem State.withResult_result (x : State) (r : Option Response) : (x.withResult r).result = r := rfl

@[simp] theorem State.beginRequest_parser (x : State) (r : Request) (es : List HostEvent) : (x.beginRequest r es).parser = x.parser := rfl
@[simp] theorem State.beginRequest_ports (x : State) (r : Request) (es : List HostEvent) : (x.beginRequest r es).ports = r.ports := rfl
@[simp] theorem State.beginRequest_pending (x : State) (r : Request) (es : List HostEvent) : (x.beginRequest r es).pending = es := rfl
@[simp] theorem State.beginRequest_result (x : State) (r : Request) (es : List HostEvent) : (x.beginRequest r es).result = none := rfl

@[simp] theorem State.idleStep_parser (x : State) (es : List HostEvent) : (x.idleStep es).parser = x.parser := rfl
@[simp] theorem State.idleStep_ports (x : State) (es : List HostEvent) : (x.idleStep es).ports = x.ports := rfl
@[simp] theorem State.idleStep_pending (x : State) (es : List HostEvent) : (x.idleStep es).pending = es := rfl
@[simp] theorem State.idleStep_result (x : State) (es : List HostEvent) : (x.idleStep es).result = none := rfl

@[simp] theorem State.powerOnStep_parser (x : State) (es : List HostEvent) : (x.powerOnStep es).parser = Parser.reset := rfl
@[simp] theorem State.powerOnStep_ports (x : State) (es : List HostEvent) : (x.powerOnStep es).ports = x.ports := rfl
@[simp] theorem State.powerOnStep_pending (x : State) (es : List HostEvent) : (x.powerOnStep es).pending = es := rfl
@[simp] theorem State.powerOnStep_result (x : State) (es : List HostEvent) : (x.powerOnStep es).result = none := rfl

@[simp] theorem State.issueFirst_parser (x : State) (w : CmdWord) : (x.issueFirst w).parser = x.parser := rfl
@[simp] theorem State.issueFirst_ports (x : State) (w : CmdWord) : (x.issueFirst w).ports = x.ports := rfl
@[simp] theorem State.issueFirst_pending (x : State) (w : CmdWord) : (x.issueFirst w).pending = .issue ⟨w, x.ports⟩ :: x.pending := rfl
@[simp] theorem State.issueFirst_result (x : State) (w : CmdWord) : (x.issueFirst w).result = x.result := rfl

end Sys2Proof.Machine
end

