-- ==== Sys2Proof/Laws/Step.lean ====
section
/-! SUPPORT. What `exec`, `step` and `trace` do, said once. -/

namespace Sys2Proof.Machine

/-! ### Each operation as an update of the state -/

theorem exec_accept (b : Byte) (s : State) :
    exec (.accept b) s =
      .next { s with parser := (s.parser.accept b).1, result := some (.accept (s.parser.accept b).2) } := rfl

theorem exec_encode (s : State) :
    exec .encode s = .next { s with result := some (.encode (encodePayload s.ports)) } := rfl

theorem exec_chksum (s : State) :
    exec .chksum s = .next { s with result := some (.chksum (sum8 s.ports.chkOperand)) } := rfl

theorem exec_reset (s : State) :
    exec .reset s = .next { s with parser := Parser.reset, result := some .reset } := rfl

/-- All that an operation can do: it answers a next state, with a result, and changes nothing of the ports and the events. -/
theorem exec_cases (i : Instr) (s : State) :
    ∃ p r, exec i s = .next { s with parser := p, result := some r } := by
  cases i <;> exact ⟨_, _, rfl⟩

/-! ### One step -/

theorem step_nil (s : State) (h : s.pending = []) : step s = .next (s.idleStep []) := by
  simp [step, fetch, h]

theorem step_idle (s : State) (rest : List HostEvent) (h : s.pending = .idle :: rest) :
    step s = .next (s.idleStep rest) := by
  simp [step, fetch, h]

theorem step_powerOn (s : State) (rest : List HostEvent) (h : s.pending = .powerOn :: rest) :
    step s = .next (s.powerOnStep rest) := by
  simp [step, fetch, h]

/-- A step whose event issues a word: the operation it decodes to, or the refusal of the word. -/
theorem step_issue (s : State) (r : Request) (rest : List HostEvent) (h : s.pending = .issue r :: rest) :
    (∃ i, decode r.cmd = .ok i ∧ step s = exec i (s.beginRequest r rest)) ∨
    (∃ e, decode r.cmd = .error e ∧ step s = .refused (.reservedWord r.cmd)) := by
  cases hd : decode r.cmd with
  | ok i => exact .inl ⟨i, rfl, by simp [step, fetch, h, hd]⟩
  | error e => exact .inr ⟨e, rfl, by simp [step, fetch, h, hd]⟩

/-- All that a step that answers a next state can do: nothing is issued, the block is reset by power-on, or an issued word runs
as the operation it decodes to. -/
theorem step_cases {s t : State} (h : step s = .next t) :
    (s.pending = [] ∧ t = s.idleStep []) ∨
    (∃ rest, s.pending = .idle :: rest ∧ t = s.idleStep rest) ∨
    (∃ rest, s.pending = .powerOn :: rest ∧ t = s.powerOnStep rest) ∨
    (∃ r rest i, s.pending = .issue r :: rest ∧ decode r.cmd = .ok i ∧ exec i (s.beginRequest r rest) = .next t) := by
  rcases hp : s.pending with _ | ⟨e, rest⟩
  · rw [step_nil s hp] at h; cases h; exact .inl ⟨rfl, rfl⟩
  · cases e with
    | idle => rw [step_idle s rest hp] at h; cases h; exact .inr (.inl ⟨rest, rfl, rfl⟩)
    | powerOn => rw [step_powerOn s rest hp] at h; cases h; exact .inr (.inr (.inl ⟨rest, rfl, rfl⟩))
    | issue r =>
      rcases step_issue s r rest hp with ⟨i, hd, hx⟩ | ⟨_, _, hx⟩
      · exact .inr (.inr (.inr ⟨r, rest, i, rfl, hd, hx ▸ h⟩))
      · rw [hx] at h; cases h

/-! ### Runs -/

@[simp] theorem trace_zero (s : State) : trace 0 s = .next (s, []) := rfl

/-- A run whose first step answers `t` is that step's result and then the run from `t`. -/
theorem trace_succ {k : Nat} {s t u : State} {rs : List Response} (h : step s = .next t)
    (ht : trace k t = .next (u, rs)) : trace (k + 1) s = .next (u, t.result.toList ++ rs) := by
  simp [trace, h, ht]

/-- A run that answers a next state came through a first step that did. -/
theorem trace_succ_inv {k : Nat} {s u : State} {rs : List Response} (h : trace (k + 1) s = .next (u, rs)) :
    ∃ t qs, step s = .next t ∧ trace k t = .next (u, qs) ∧ rs = t.result.toList ++ qs := by
  cases hs : step s with
  | fault f => simp [trace, hs] at h
  | refused r => simp [trace, hs] at h
  | next t =>
    cases ht : trace k t with
    | fault f => simp [trace, hs, ht] at h
    | refused r => simp [trace, hs, ht] at h
    | next uq =>
      obtain ⟨v, qs⟩ := uq
      simp only [trace, hs, ht, Host.Outcome.next.injEq, Prod.mk.injEq] at h
      exact ⟨t, qs, rfl, by rw [ht, h.1], h.2.symm⟩

end Sys2Proof.Machine
end

