-- ==== Sys2Proof/Laws/Units.lean ====
section
/-! SUPPORT. One lemma for each shared operation of the three units, saying all it can do. -/

namespace Sys2Proof.Machine

/-! ### Operands -/

@[simp] theorem lanes_length (port : List Byte) (n : Nat) : (lanes port n).length = n := by
  simp [lanes]

theorem lanes_getElem? (port : List Byte) (n i : Nat) (h : i < n) : (lanes port n)[i]? = some (lane port i) := by
  simp [lanes, h]

/-- A port set to a list reads back as the list (R67). -/
theorem lanes_self (p : List Byte) : lanes p p.length = p := by
  apply List.ext_getElem?
  intro i
  by_cases h : i < p.length
  · rw [lanes_getElem? p _ i h]; simp [lane, h]
  · rw [List.getElem?_eq_none (by simpa using h), List.getElem?_eq_none (by simpa using h)]

/-- Ports that agree on the lanes below `n` give the same operand (R41). -/
theorem lanes_congr {p q : List Byte} {n : Nat} (h : ∀ i < n, lane p i = lane q i) : lanes p n = lanes q n := by
  unfold lanes
  exact List.map_congr_left fun i hi => h i (List.mem_range.mp hi)

/-! ### The checksum -/

@[simp] theorem sum8_nil : sum8 [] = 0x00#8 := rfl

/-- The fold of `+8` from any start is the start plus `sum8`. -/
theorem foldl_add_eq (p : List Byte) (c : Byte) : p.foldl (· + ·) c = c + sum8 p := by
  unfold sum8
  induction p generalizing c with
  | nil => simp
  | cons b bs ih =>
    rw [List.foldl_cons, List.foldl_cons, ih (c + b), ih (0x00#8 + b)]
    simp [BitVec.add_assoc]

theorem sum8_cons (b : Byte) (p : List Byte) : sum8 (b :: p) = b + sum8 p := by
  have := foldl_add_eq p (0x00#8 + b)
  simpa [sum8] using this

/-- The parser's running update (R25). -/
theorem sum8_concat (p : List Byte) (b : Byte) : sum8 (p ++ [b]) = sum8 p + b := by
  simp [sum8]

/-! ### The encoder -/

@[simp] theorem frameOf_length (p : List Byte) : (frameOf p).length = p.length + 4 := by
  simp [frameOf]

/-- All that the encoder unit can answer (R76 to R78, R80). -/
theorem encodePayload_cases (q : Ports) :
    ((q.encLen.toNat = 0 ∨ 255 < q.encLen.toNat) ∧ encodePayload q = .error .invalidParameter) ∨
    (1 ≤ q.encLen.toNat ∧ q.encLen.toNat ≤ 255 ∧ q.maxFrameSize.toNat < q.encLen.toNat + 4 ∧
      encodePayload q = .error .bufferTooSmall) ∨
    (1 ≤ q.encLen.toNat ∧ q.encLen.toNat ≤ 255 ∧ q.encLen.toNat + 4 ≤ q.maxFrameSize.toNat ∧
      encodePayload q = .ok (frameOf q.encOperand)) := by
  unfold encodePayload Config.maxLen Config.frameOverhead
  split
  · exact .inl ⟨‹_›, rfl⟩
  · split
    · exact .inr (.inl ⟨by omega, by omega, ‹_›, rfl⟩)
    · exact .inr (.inr ⟨by omega, by omega, by omega, rfl⟩)

/-! ### The parser -/

/-- All that one transition of the parser can do: the eight rows of the table (R86 to R94). -/
theorem Parser.accept_cases (p : Parser) (b : Byte) :
    (p.st = .awaitingStart ∧ b = 0x02#8 ∧ p.accept b = (⟨.awaitingLength, [], 0#8, 0#8, 0#8⟩, .waiting)) ∨
    (p.st = .awaitingStart ∧ b ≠ 0x02#8 ∧ p.accept b = (⟨.awaitingStart, [], 0#8, 0#8, 0#8⟩, .waiting)) ∨
    (p.st = .awaitingLength ∧ b ≠ 0x00#8 ∧
      p.accept b = ({ p with st := .awaitingPayload, expLen := b }, .waiting)) ∨
    (p.st = .awaitingLength ∧ b = 0x00#8 ∧ p.accept b = (⟨.awaitingStart, [], 0#8, 0#8, 0#8⟩, .waiting)) ∨
    (p.st = .awaitingPayload ∧ p.buf.length + 1 ≠ p.expLen.toNat ∧
      p.accept b = ({ p with buf := p.buf ++ [b], acc := p.acc + b }, .waiting)) ∨
    (p.st = .awaitingPayload ∧ p.buf.length + 1 = p.expLen.toNat ∧
      p.accept b = ({ p with st := .awaitingChecksum, buf := p.buf ++ [b], acc := p.acc + b }, .waiting)) ∨
    (p.st = .awaitingChecksum ∧ p.accept b = ({ p with st := .awaitingEnd, rxChk := b }, .waiting)) ∨
    (p.st = .awaitingEnd ∧ b = 0x03#8 ∧ p.rxChk = p.acc ∧
      p.accept b = (⟨.awaitingStart, [], 0#8, 0#8, 0#8⟩, .complete p.buf)) ∨
    (p.st = .awaitingEnd ∧ (b ≠ 0x03#8 ∨ p.rxChk ≠ p.acc) ∧
      p.accept b = (⟨.awaitingStart, [], 0#8, 0#8, 0#8⟩, .rejected .checksumOrFramingError)) := by
  have pos : (0 < b.toNat) = (b ≠ 0x00#8) := by
    simp [Nat.pos_iff_ne_zero, BitVec.toNat_eq]
  obtain ⟨st, buf, expLen, acc, rxChk⟩ := p
  cases st
  · by_cases h : b = 0x02#8
    · exact .inl ⟨rfl, h, by simp [accept, h, Config.startMarker]; rfl⟩
    · exact .inr (.inl ⟨rfl, h, by simp [accept, h, Config.startMarker]; rfl⟩)
  · by_cases h : b = 0x00#8
    · exact .inr (.inr (.inr (.inl ⟨rfl, h, by simp [accept, h]; rfl⟩)))
    · exact .inr (.inr (.inl ⟨rfl, h, by simp [accept, pos, h]; rfl⟩))
  · by_cases h : buf.length + 1 = expLen.toNat
    · exact .inr (.inr (.inr (.inr (.inr (.inl ⟨rfl, h, by simp [accept, h]; rfl⟩)))))
    · exact .inr (.inr (.inr (.inr (.inl ⟨rfl, h, by simp [accept, h]; rfl⟩))))
  · exact .inr (.inr (.inr (.inr (.inr (.inr (.inl ⟨rfl, rfl⟩))))))
  · by_cases h : b = 0x03#8 ∧ rxChk = acc
    · exact .inr (.inr (.inr (.inr (.inr (.inr (.inr (.inl
        ⟨rfl, h.1, h.2, by simp [accept, h, Config.endMarker]; rfl⟩)))))))
    · refine .inr (.inr (.inr (.inr (.inr (.inr (.inr (.inr ⟨rfl, ?_, ?_⟩)))))))
      · by_cases h1 : b = 0x03#8
        · exact .inr fun h2 => h ⟨h1, h2⟩
        · exact .inl h1
      · simp only [accept, Config.endMarker, if_neg h]; rfl

@[simp] theorem Parser.feed_nil (p : Parser) : p.feed [] = (p, []) := rfl

theorem Parser.feed_cons (p : Parser) (b : Byte) (bs : List Byte) :
    p.feed (b :: bs) = (((p.accept b).1.feed bs).1, (p.accept b).2 :: ((p.accept b).1.feed bs).2) := rfl

/-- Feeding two sequences is feeding one and then the other from where it ended. -/
theorem Parser.feed_append (p : Parser) (as bs : List Byte) :
    p.feed (as ++ bs) = (((p.feed as).1.feed bs).1, (p.feed as).2 ++ ((p.feed as).1.feed bs).2) := by
  induction as generalizing p with
  | nil => simp
  | cons a as ih => simp [Parser.feed_cons, ih]

/-- One outcome a byte (R85). -/
@[simp] theorem Parser.feed_length (p : Parser) (bs : List Byte) : (p.feed bs).2.length = bs.length := by
  induction bs generalizing p with
  | nil => rfl
  | cons b bs ih => simp [Parser.feed_cons, ih]

end Sys2Proof.Machine
end

