-- ==== Sys2Proof/Tests/Slice0.lean ====
section
/-! SUPPORT. Small tests (expected results from spec/95_test_vectors.md, whose ids the comments name, or worked by hand from a
rule), the smoke tests of the well-formedness checks, and for each obligation with hypotheses a state that meets them. -/

namespace Sys2Proof.Tests

open Sys2Proof.Machine

/-! ### Helpers -/

/-- Ports with an `ENCODE` operand, a capacity and a `CHKSUM` operand. -/
def mkPorts (enc : List Byte) (cap : Half) (chk : List Byte) : Ports :=
  ⟨BitVec.ofNat 16 enc.length, enc, cap, BitVec.ofNat 8 chk.length, chk⟩

/-- A state with that parser and those events to come. -/
def mkState (p : Parser) (es : List HostEvent) : State := ⟨p, Ports.reset, es, none⟩

/-- A state with the reset parser and those ports. -/
def withPortsOnly (q : Ports) : State := ⟨Parser.reset, q, [], none⟩

/-- The request that issues a word with the reset ports. -/
def req (w : CmdWord) : Request := ⟨w, Ports.reset⟩

/-- The parser inside the frame of `AA BB CC` (95 section 2.3). -/
def inPayload : Parser := ⟨.awaitingPayload, [0xAA#8, 0xBB#8], 0x03#8, 0x65#8, 0x00#8⟩
def inChecksum : Parser := ⟨.awaitingChecksum, [0xAA#8, 0xBB#8, 0xCC#8], 0x03#8, 0x31#8, 0x00#8⟩
def inEnd : Parser := ⟨.awaitingEnd, [0xAA#8, 0xBB#8, 0xCC#8], 0x03#8, 0x31#8, 0x31#8⟩
def inLength : Parser := ⟨.awaitingLength, [], 0x00#8, 0x00#8, 0x00#8⟩

/-- The payload `AA BB CC` and its frame (W1). -/
def abc : List Byte := [0xAA#8, 0xBB#8, 0xCC#8]
def abcFrame : List Byte := [0x02#8, 0x03#8, 0xAA#8, 0xBB#8, 0xCC#8, 0x31#8, 0x03#8]

/-! ### Well-formedness smoke -/

theorem test_every_instr_wf (i : Instr) : i.wf = true := by cases i <;> rfl

theorem test_ports_wf_refuses_too_many_enc_lanes :
    ({ Ports.reset with encPayload := List.replicate 65536 0x00#8 } : Ports).wf = false := by
  simp only [Ports.wf, List.length_replicate]; decide

theorem test_ports_wf_refuses_too_many_chk_lanes :
    ({ Ports.reset with chkPayload := List.replicate 256 0x00#8 } : Ports).wf = false := by
  simp only [Ports.wf, List.length_replicate]; decide

theorem test_ports_wf_takes_every_lane :
    ({ Ports.reset with encPayload := List.replicate 65535 0x00#8, chkPayload := List.replicate 255 0x00#8 } : Ports).wf
      = true := by
  simp only [Ports.wf, List.length_replicate]; decide

theorem test_request_and_event_wf_refuse :
    (HostEvent.issue ⟨0x200#10, { Ports.reset with chkPayload := List.replicate 256 0x00#8 }⟩).wf = false := by
  simp only [HostEvent.wf, Request.wf, Ports.wf, List.length_replicate]; decide

theorem test_response_wf_refuses_empty_payload : (Response.accept (.complete [])).wf = false := by decide

theorem test_response_wf_refuses_long_payload :
    (Response.accept (.complete (List.replicate 256 0x00#8))).wf = false := by
  simp only [Response.wf, List.length_replicate]; decide

theorem test_response_wf_refuses_short_frame :
    (Response.encode (.ok [0x02#8, 0x00#8, 0x00#8, 0x03#8])).wf = false := by decide

theorem test_response_wf_refuses_long_frame :
    (Response.encode (.ok (List.replicate 260 0x00#8))).wf = false := by
  simp only [Response.wf, List.length_replicate]; decide

/-! ### Decoding: words written bit by bit from R56 and R57 (op in bits 9:8, imm8 in bits 7:0) -/

theorem test_decode_accept_AA : decode 0b00_10101010#10 = .ok (.accept 0xAA#8) := by decide

theorem test_decode_encode : decode 0b01_00000000#10 = .ok .encode := by decide

theorem test_decode_chksum : decode 0b10_00000000#10 = .ok .chksum := by decide

theorem test_decode_reset : decode 0b11_00000000#10 = .ok .reset := by decide

/-- V-D5, V-D7, V-D9. -/
theorem test_decode_reserved :
    decode 0b01_00000001#10 = .error (.reservedWord 0x101#10) ∧
    decode 0b10_11111111#10 = .error (.reservedWord 0x2FF#10) ∧
    decode 0b11_10000000#10 = .error (.reservedWord 0x380#10) := by decide

theorem test_decode_table_words :
    decodeTableWord 16 0x0FF = some (.accept 0xFF#8) ∧ decodeTableWord 16 0x100 = some .encode ∧
    decodeTableWord 16 0x101 = none ∧ decodeTableWord 16 0x400 = none := by decide

theorem test_decode_number_too_wide : decodeNat 0x400 = .error (.wordTooWide 0x400) := by decide

/-! ### ACCEPT -/

/-- 95 section 2.3, the byte CC: the length is compared after the append (R91). -/
theorem test_accept_last_payload_byte : inPayload.accept 0xCC#8 = (inChecksum, .waiting) := by decide

/-- 95 section 2.3, the byte 03, and V-P3: a bad checksum is rejected (R93, R94). -/
theorem test_accept_end_byte :
    inEnd.accept 0x03#8 = (Parser.reset, .complete abc) ∧
    ({ inEnd with rxChk := 0x32#8 } : Parser).accept 0x03#8 = (Parser.reset, .rejected .checksumOrFramingError) := by
  decide

/-! ### ENCODE -/

/-- V-E2 and V-E3: a capacity of L + 4 is enough, one less is not. -/
theorem test_encode_capacity_boundary :
    encodePayload (mkPorts abc 7#16 []) = .ok abcFrame ∧
    encodePayload (mkPorts abc 6#16 []) = .error .bufferTooSmall := by decide

/-- V-E5: when both checks fail, `InvalidParameter`. -/
theorem test_encode_both_checks_fail : encodePayload (mkPorts [] 0#16 []) = .error .invalidParameter := by decide

/-! ### CHKSUM -/

/-- V-C7 and V-C4: the sum wraps. -/
theorem test_chksum_wraps :
    exec .chksum (withPortsOnly (mkPorts [] 0#16 abc)) =
      .next { withPortsOnly (mkPorts [] 0#16 abc) with result := some (.chksum 0x31#8) } ∧
    sum8 [0xFF#8, 0x01#8] = 0x00#8 := ⟨rfl, rfl⟩

/-- R41: a lane beyond `chk_len` is not read. -/
theorem test_chksum_reads_below_its_length :
    (Ports.chkOperand { Ports.reset with chkLen := 0x02#8, chkPayload := [0x02#8, 0x03#8, 0x99#8] }) =
      [0x02#8, 0x03#8] := by decide

/-! ### RESET -/

/-- V-R2: a partial frame is dropped without an outcome. -/
theorem test_reset_drops_a_partial_frame :
    exec .reset (mkState ⟨.awaitingPayload, [0xAA#8], 0x03#8, 0xAA#8, 0x00#8⟩ []) =
      .next { mkState Parser.reset [] with result := some .reset } := rfl

/-! ### Steps, ports, blocks, assembler -/

/-- The word of `ACCEPT 02` runs as the first step after reset. -/
theorem test_step_runs_the_fetch_word :
    step (State.reset.withFetchWord 16 0x002) =
      .next { State.reset with parser := inLength, result := some (.accept .waiting) } := rfl

theorem test_step_refuses_a_reserved_word :
    step (mkState inEnd [.issue (req 0x3FF#10)]) = .refused (.reservedWord 0x3FF#10) := rfl

/-- V-P19's observation. -/
theorem test_observe : (mkState inEnd []).observe = ⟨0b100#3, 0x03#8, 0x03#8, 0x31#8, 0x31#8⟩ := by decide

/-- R63, R65: the codes that are never driven. -/
theorem test_readers_fault_on_undriven_codes :
    (AcceptPorts.mk 0b11#2 0b00#2 0x00#8 []).read = .error (.undrivenOutcomeCode 0b11#2) ∧
    (EncodePorts.mk 0b11#2 0#9 []).read = .error (.undrivenStatusCode 0b11#2) ∧
    ParserState.ofCode 0b101#3 = .error (.unheldStateCode 0b101#3) := by
  refine ⟨rfl, rfl, rfl⟩

/-- The first two lines of L3-1: the words they issue. -/
theorem test_assemble_encode_then_feed_frame :
    assemble ⟨Ports.reset, []⟩ [.encode abc 16#16, .feedFrame] =
      [0x100#10, 0x002#10, 0x003#10, 0x0AA#10, 0x0BB#10, 0x0CC#10, 0x031#10, 0x003#10].map
        (fun w => .issue ⟨w, ⟨3#16, abc, 16#16, 0#8, []⟩⟩) := by decide

/-! ### Witnesses: states and operands that meet the hypotheses of the obligations -/

theorem witness_OpcodeRowsDecodeToTheirOperations :
    (0x0FF#10 &&& 0x300#10 = 0x000#10) ∧ (0x100#10 &&& 0x3FF#10 = 0x100#10) ∧
    (0x200#10 &&& 0x3FF#10 = 0x200#10) ∧ (0x300#10 &&& 0x3FF#10 = 0x300#10) := by decide

theorem witness_DecoderIsTotalOnAllWords :
    (0x0FF#10).toNat < 0x100 ∧ (0x100#10).toNat = 0x100 ∧ (0x200#10).toNat = 0x200 ∧ (0x300#10).toNat = 0x300 ∧
    0x100 < (0x101#10).toNat ∧ (0x101#10).toNat ≠ 0x200 ∧ (0x101#10).toNat ≠ 0x300 ∧
    0x100 < (0x3FF#10).toNat ∧ (0x3FF#10).toNat ≠ 0x200 ∧ (0x3FF#10).toNat ≠ 0x300 := by decide

/-- The ends of the three ranges of reserved words. -/
theorem witness_ReservedWordIsRefusedForTheRestOfTheRun :
    ∀ w ∈ [0x101#10, 0x1FF#10, 0x201#10, 0x2FF#10, 0x301#10, 0x3FF#10],
      (mkState inEnd [.issue (req w)]).pending = .issue (req w) :: [] ∧
      ((0x101 ≤ (req w).cmd.toNat ∧ (req w).cmd.toNat ≤ 0x1FF) ∨
        (0x201 ≤ (req w).cmd.toNat ∧ (req w).cmd.toNat ≤ 0x2FF) ∨
        (0x301 ≤ (req w).cmd.toNat ∧ (req w).cmd.toNat ≤ 0x3FF)) := by decide

theorem witness_StepRunsTheIssuedOperation :
    (mkState inEnd [.issue (req 0x003#10)]).pending = .issue (req 0x003#10) :: [] ∧
    decode (req 0x003#10).cmd = .ok (.accept 0x03#8) := by decide

theorem witness_StepTakesExactlyOneEvent :
    ∃ t, step (mkState inEnd [.issue (req 0x003#10), .idle]) = .next t := ⟨_, rfl⟩

theorem witness_RunsComposeAndIgnoreLaterEvents :
    (∃ t u rs qs, trace 1 (mkState inEnd [.issue (req 0x003#10), .idle]) = .next (t, rs) ∧
      trace 1 t = .next (u, qs)) ∧
    (∃ t rs, trace [HostEvent.issue (req 0x003#10)].length
      { mkState inEnd [] with pending := [.issue (req 0x003#10)] ++ [.idle] } = .next (t, rs)) :=
  ⟨⟨_, _, _, _, rfl, rfl⟩, ⟨_, _, rfl⟩⟩

theorem witness_IdleTimeChangesNoBlockState :
    (mkState inEnd [.idle, .idle, .powerOn]).pending = List.replicate 2 .idle ++ [.powerOn] ∧
    (mkState inEnd []).pending = [] := by decide

theorem witness_PowerOnEventResetsTheParser :
    (mkState inEnd [.powerOn]).pending = .powerOn :: [] := by decide

theorem witness_OnlyAcceptAndResetsMoveTheParser :
    (∃ t, step (mkState inEnd [.powerOn]) = .next t ∧ t.parser ≠ (mkState inEnd [.powerOn]).parser) ∧
    (∃ t, step (mkState inEnd [.issue (req 0x300#10)]) = .next t ∧
      t.parser ≠ (mkState inEnd [.issue (req 0x300#10)]).parser) ∧
    (∃ t, step (mkState inEnd [.issue (req 0x0FF#10)]) = .next t ∧
      t.parser ≠ (mkState inEnd [.issue (req 0x0FF#10)]).parser) :=
  ⟨⟨_, rfl, by decide⟩, ⟨_, rfl, by decide⟩, ⟨_, rfl, by decide⟩⟩

theorem witness_ResultsAndEarlierOperandsAreNeverRead :
    (mkState inEnd [.issue (req 0x100#10)]).pending = .issue (req 0x100#10) :: [] := by decide

theorem witness_OperationsLeaveTheRestUnchanged :
    (∃ t, exec .encode (mkState inEnd []) = .next t) ∧ (∃ t, exec .chksum (mkState inEnd []) = .next t) ∧
    (∃ t, exec (.accept 0x03#8) (mkState inEnd []) = .next t) ∧ (∃ t, exec .reset (mkState inEnd []) = .next t) :=
  ⟨⟨_, rfl⟩, ⟨_, rfl⟩, ⟨_, rfl⟩, ⟨_, rfl⟩⟩

/-- Two port values that differ beyond the lengths only. -/
theorem witness_LanesBeyondTheLengthAreNotRead :
    let s := withPortsOnly ⟨1#16, [0x11#8], 5#16, 1#8, [0x11#8]⟩
    let q : Ports := ⟨1#16, [0x11#8, 0x22#8], 5#16, 1#8, [0x11#8, 0x33#8]⟩
    q ≠ s.ports ∧ q.encLen = s.ports.encLen ∧ q.maxFrameSize = s.ports.maxFrameSize ∧
      (∀ i < s.ports.encLen.toNat, q.encLane i = s.ports.encLane i) ∧
      q.chkLen = s.ports.chkLen ∧ (∀ i < s.ports.chkLen.toNat, q.chkLane i = s.ports.chkLane i) := by decide

theorem witness_EncodeRejectsBadLengths :
    (withPortsOnly (mkPorts [] 16#16 [])).ports.encLen.toNat = 0 ∧
    255 < (withPortsOnly ⟨256#16, [], 300#16, 0#8, []⟩).ports.encLen.toNat := by decide

/-- Length 1 with a capacity one short, and length 255 with one that is just enough. -/
theorem witness_EncodeChecksTheCapacity :
    let s := withPortsOnly ⟨1#16, [], 4#16, 0#8, []⟩
    let u := withPortsOnly ⟨255#16, [], 259#16, 0#8, []⟩
    (1 ≤ s.ports.encLen.toNat ∧ s.ports.encLen.toNat ≤ 255 ∧
      s.ports.maxFrameSize.toNat < s.ports.encLen.toNat + 4) ∧
    (1 ≤ u.ports.encLen.toNat ∧ u.ports.encLen.toNat ≤ 255 ∧
      u.ports.encLen.toNat + 4 ≤ u.ports.maxFrameSize.toNat) := by decide

theorem witness_EncodeLaysOutTheFrame :
    let s := withPortsOnly ⟨1#16, [0x00#8], 5#16, 0#8, []⟩
    let u := withPortsOnly ⟨255#16, [], 259#16, 0#8, []⟩
    (1 ≤ s.ports.encLen.toNat ∧ s.ports.encLen.toNat ≤ 255 ∧
      s.ports.encLen.toNat + 4 ≤ s.ports.maxFrameSize.toNat) ∧
    (1 ≤ u.ports.encLen.toNat ∧ u.ports.encLen.toNat ≤ 255 ∧
      u.ports.encLen.toNat + 4 ≤ u.ports.maxFrameSize.toNat) := by decide

theorem witness_FailedEncodeHasNoEffect :
    ∃ t, exec .encode (withPortsOnly (mkPorts [] 16#16 [])) = .next t ∧
      t.result = some (.encode (.error .invalidParameter)) := ⟨_, rfl, rfl⟩

theorem witness_FramesGiveBackTheirPayload :
    ∃ t, exec .encode (withPortsOnly (mkPorts abc 16#16 [])) = .next t ∧
      t.result = some (.encode (.ok abcFrame)) ∧
      exec .encode (withPortsOnly (mkPorts abc 7#16 [])) = .next { withPortsOnly (mkPorts abc 7#16 []) with
        result := t.result } := ⟨_, rfl, rfl, rfl⟩

theorem witness_EncodeAndChksumDependOnTheirPortsAlone :
    (mkState inEnd []).ports = (mkState inPayload []).ports := by decide

theorem witness_AcceptInAwaitingStart :
    (mkState Parser.reset []).parser.st = .awaitingStart ∧ (mkState Parser.reset []).parser.Inv ∧
    (0x03#8 : Byte) ≠ 0x02#8 := by decide

theorem witness_AcceptInAwaitingLength :
    (mkState inLength []).parser.st = .awaitingLength ∧ (mkState inLength []).parser.Inv ∧
    (0xFF#8 : Byte) ≠ 0x00#8 ∧ (0x01#8 : Byte) ≠ 0x00#8 := by decide

theorem witness_AcceptInAwaitingPayload :
    (mkState inPayload []).parser.st = .awaitingPayload ∧
    (mkState inPayload []).parser.buf.length + 1 = (mkState inPayload []).parser.expLen.toNat ∧
    (mkState { inPayload with expLen := 0x04#8 } []).parser.st = .awaitingPayload ∧
    (mkState { inPayload with expLen := 0x04#8 } []).parser.buf.length + 1 ≠ 4 := by decide

theorem witness_AcceptInAwaitingChecksum : (mkState inChecksum []).parser.st = .awaitingChecksum := by decide

theorem witness_AcceptInAwaitingEnd :
    (mkState inEnd []).parser.st = .awaitingEnd ∧ (mkState inEnd []).parser.Inv ∧
    (mkState inEnd []).parser.rxChk = (mkState inEnd []).parser.acc ∧
    (mkState { inEnd with rxChk := 0x32#8 } []).parser.rxChk ≠
      (mkState { inEnd with rxChk := 0x32#8 } []).parser.acc ∧ (0x02#8 : Byte) ≠ 0x03#8 := by decide

theorem witness_ResetReturnsTheParserToItsInitialState :
    State.reset.parser.Inv ∧ State.reset.parser.st = .awaitingStart := by decide

theorem witness_AcceptWritesEachRegisterOnlyInItsState :
    (∃ t, exec (.accept 0xCC#8) (mkState inPayload []) = .next t ∧ t.parser.st ≠ .awaitingStart) ∧
    (∃ t, exec (.accept 0x03#8) (mkState inEnd []) = .next t ∧ t.parser.st = .awaitingStart) :=
  ⟨⟨_, rfl, by decide⟩, ⟨_, rfl, by decide⟩⟩

theorem witness_BytesInsideAFrameArePositional :
    inPayload.st = .awaitingPayload ∧ inChecksum.st = .awaitingChecksum ∧ inLength.st = .awaitingLength ∧
    (0x02#8 : Byte) ≠ 0x00#8 ∧ (0xFF#8 : Byte) ≠ 0x00#8 := by decide

theorem witness_CompletePayloadIsChecked :
    (mkState inEnd []).parser.Inv ∧
    ∃ t, exec (.accept 0x03#8) (mkState inEnd []) = .next t ∧ t.result = some (.accept (.complete abc)) :=
  ⟨by decide, _, rfl, rfl⟩

theorem witness_AcceptRunsFeedTheParser :
    AcceptsBytes (abcFrame.map fun b => req (encode (.accept b))) abcFrame ∧
    (mkState Parser.reset ((abcFrame.map fun b => req (encode (.accept b))).map .issue ++ [.idle])).pending =
      (abcFrame.map fun b => req (encode (.accept b))).map .issue ++ [.idle] := by decide

theorem witness_EncodedFrameParsesBack :
    let e := withPortsOnly (mkPorts abc 7#16 [])
    1 ≤ e.ports.encLen.toNat ∧ e.ports.encLen.toNat ≤ 255 ∧ e.ports.encLen.toNat + 4 ≤ e.ports.maxFrameSize.toNat ∧
    exec .encode e = .next { e with result := some (.encode (.ok abcFrame)) } ∧
    (mkState Parser.reset ((abcFrame.map fun b => req (encode (.accept b))).map .issue)).parser.st = .awaitingStart ∧
    AcceptsBytes (abcFrame.map fun b => req (encode (.accept b))) abcFrame ∧
    (mkState Parser.reset ((abcFrame.map fun b => req (encode (.accept b))).map .issue)).pending =
      (abcFrame.map fun b => req (encode (.accept b))).map .issue ++ [] :=
  ⟨by decide, by decide, by decide, rfl, by decide, by decide, by decide⟩

theorem witness_CorruptedChkOrEndIsRejectedThenResynchronises :
    Parser.reset.st = .awaitingStart ∧ 1 ≤ abc.length ∧ abc.length ≤ 255 ∧
    (0x32#8 : Byte) ≠ sum8 abc ∧ (0x31#8 : Byte) = sum8 abc ∧ (0x04#8 : Byte) ≠ 0x03#8 := by decide

/-- V-P2's noise. -/
theorem witness_NoiseThenFrameCompletesOnce :
    Parser.reset.st = .awaitingStart ∧ (∀ b ∈ [0x00#8, 0xFF#8, 0x03#8, 0x15#8, 0x06#8], b ≠ (0x02#8 : Byte)) ∧
    1 ≤ abc.length ∧ abc.length ≤ 255 := by decide

/-- One parser for each clause, with byte sequences of the lengths the clauses ask for; for LEN its three boundary values 0, 1
and 0xFF. -/
theorem witness_TruncatedFrameRecoversByCountAlone_zero_length :
    inLength.Inv ∧ inLength.st = .awaitingLength ∧ ∃ bs : List Byte, bs = [0x00#8] := by
  refine ⟨by decide, rfl, _, rfl⟩

theorem witness_TruncatedFrameRecoversByCountAlone_longest :
    inLength.Inv ∧ inLength.st = .awaitingLength ∧ (0xFF#8 : Byte) ≠ 0x00#8 ∧
      (List.replicate 257 (0x00#8 : Byte)).length = (0xFF#8 : Byte).toNat + 2 := by
  refine ⟨by decide, rfl, by decide, ?_⟩
  rw [List.length_replicate]; rfl

theorem witness_TruncatedFrameRecoversByCountAlone_length :
    inLength.Inv ∧ inLength.st = .awaitingLength ∧ (0x01#8 : Byte) ≠ 0x00#8 ∧
      ([0xAA#8, 0xBB#8, 0xCC#8] : List Byte).length = (0x01#8 : Byte).toNat + 2 := by decide

theorem witness_TruncatedFrameRecoversByCountAlone_payload :
    inPayload.Inv ∧ inPayload.st = .awaitingPayload ∧
      ([0xAA#8, 0xBB#8, 0xCC#8] : List Byte).length = (inPayload.expLen.toNat - inPayload.buf.length) + 2 := by decide

theorem witness_TruncatedFrameRecoversByCountAlone_checksum :
    inChecksum.Inv ∧ inChecksum.st = .awaitingChecksum ∧ ([0xAA#8, 0xBB#8] : List Byte).length = 2 := by decide

theorem witness_TruncatedFrameRecoversByCountAlone_end :
    inEnd.Inv ∧ inEnd.st = .awaitingEnd ∧ ([0xAA#8] : List Byte).length = 1 := by decide

theorem witness_EveryCompleteEndsAFrameOnTheWire :
    Parser.reset.st = .awaitingStart ∧
    (Parser.reset.feed ([0xFF#8] ++ abcFrame)).2 = List.replicate 7 .waiting ++ [.complete abc] := by decide

theorem witness_ThreeUnitsComputeOneChecksum :
    let s := withPortsOnly (mkPorts abc 7#16 abc)
    1 ≤ abc.length ∧ abc.length ≤ 255 ∧ s.ports.encOperand = abc ∧ s.ports.chkOperand = abc ∧
    abc.length + 4 ≤ s.ports.maxFrameSize.toNat := by decide

theorem witness_StepKeepsTheInvariant :
    (mkState inEnd [.issue (req 0x003#10)]).Inv ∧
    ∃ t, step (mkState inEnd [.issue (req 0x003#10)]) = .next t := ⟨by decide, _, rfl⟩

theorem witness_NeighboursOfTwoUnitsSwap :
    decode (req 0x100#10).cmd = .ok .encode ∧ decode (req 0x200#10).cmd = .ok .chksum ∧
    decode (req 0x300#10).cmd = .ok .reset ∧ decode (req 0x002#10).cmd = .ok (.accept 0x02#8) := by decide

theorem witness_OtherUnitsAreInvisibleToTheParser :
    ∀ e ∈ [HostEvent.issue (req 0x002#10), .idle, .issue (req 0x100#10), .powerOn, .issue (req 0x300#10),
      .issue (req 0x200#10)], e.served = true := by decide

theorem witness_ResultPortsReadBack :
    (Response.accept (.complete abc)).wf = true ∧ (Response.encode (.ok abcFrame)).wf = true ∧
    (AcceptPorts.mk 0b11#2 0b00#2 0x00#8 []).outcome = 0b11#2 ∧
    (AcceptPorts.mk 0b10#2 0b01#2 0x00#8 []).outcome = 0b10#2 ∧
    (AcceptPorts.mk 0b10#2 0b01#2 0x00#8 []).reason ≠ 0b00#2 ∧
    (EncodePorts.mk 0b11#2 0#9 []).encStatus = 0b11#2 ∧ 5 ≤ (0b101#3).toNat := by decide

theorem witness_ObservationPortShowsTheRegisters : (mkState inEnd []).parser.Inv := by decide

theorem witness_BlocksShareNothing :
    ∃ z, (System.mk [State.reset, mkState inEnd [.issue (req 0x003#10)]]).stepAt ⟨1, by decide⟩ = .next z :=
  ⟨_, rfl⟩

theorem witness_AssemblerLinesExpandAsWritten :
    abc.length ≤ 65535 ∧ abc.length ≤ 255 ∧ 1 ≤ abc.length ∧ abc.length + 4 ≤ (7#16).toNat ∧
    (6#16).toNat < abc.length + 4 ∧ ([] : List Byte).length = 0 := by decide

end Sys2Proof.Tests
end

/-! ### What the observation port shows (R35, R66) -/

namespace Sys2Proof.Machine

/-- The bound of the receive buffer, out of the invariant (R23). -/
theorem Parser.Inv.buf_length_le {p : Parser} (h : p.Inv) : p.buf.length ≤ Config.bufCap := by
  obtain ⟨_, _, _, _, _, hbuf⟩ := h
  exact hbuf

@[simp] theorem State.observe_st (s : State) : s.observe.st = s.parser.st.code := rfl
@[simp] theorem State.observe_bufCnt (s : State) : s.observe.bufCnt = BitVec.ofNat 8 s.parser.buf.length := rfl
@[simp] theorem State.observe_expLen (s : State) : s.observe.expLen = s.parser.expLen := rfl
@[simp] theorem State.observe_acc (s : State) : s.observe.acc = s.parser.acc := rfl
@[simp] theorem State.observe_rxChk (s : State) : s.observe.rxChk = s.parser.rxChk := rfl

/-- The byte `buf_cnt` is the length of `buf` itself, not only modulo 256: the buffer's capacity fits a byte (R12, R23). -/
theorem State.observe_bufCnt_toNat {s : State} (h : s.parser.Inv) :
    s.observe.bufCnt.toNat = s.parser.buf.length := by
  have hlt : s.parser.buf.length < 2 ^ 8 := Nat.lt_succ_of_le h.buf_length_le
  rw [State.observe_bufCnt, BitVec.toNat_ofNat, Nat.mod_eq_of_lt hlt]

theorem ParserState.code_toNat_lt (v : ParserState) : v.code.toNat < 5 := by
  cases v <;> decide

/-- Every code below 101 is a state's (R66). -/
theorem ParserState.exists_code_eq {c : BitVec 3} (h : c.toNat < 5) : ∃ v : ParserState, v.code = c := by
  have five : c = 0b000#3 ∨ c = 0b001#3 ∨ c = 0b010#3 ∨ c = 0b011#3 ∨ c = 0b100#3 := by
    revert c; decide
  obtain rfl | rfl | rfl | rfl | rfl := five
  · exact ⟨.awaitingStart, rfl⟩
  · exact ⟨.awaitingLength, rfl⟩
  · exact ⟨.awaitingPayload, rfl⟩
  · exact ⟨.awaitingChecksum, rfl⟩
  · exact ⟨.awaitingEnd, rfl⟩

/-- The codes held by `st` are those below 101, so 101, 110 and 111 are no state's (R66). -/
theorem ParserState.exists_code_eq_iff (c : BitVec 3) : (∃ v : ParserState, v.code = c) ↔ c.toNat < 5 := by
  constructor
  · rintro ⟨v, rfl⟩
    exact v.code_toNat_lt
  · exact ParserState.exists_code_eq

/-- Settles O50: the invariant makes `buf_cnt` a byte, the other fields are the registers, and the codes are the five of R66. -/
theorem observationPortShowsTheRegisters : Obligations.ObservationPortShowsTheRegisters :=
  ⟨fun s hinv => ⟨s.observe_st, State.observe_bufCnt_toNat hinv, s.observe_expLen, s.observe_acc, s.observe_rxChk⟩,
    rfl, rfl, rfl, rfl, rfl, ParserState.exists_code_eq_iff⟩

end Sys2Proof.Machine

/-! ### What the host issues for a line of assembler (R67, R68) -/

namespace Sys2Proof.Machine

section Operands

variable (q : Ports) (m : List Byte) (cap : Half)

@[simp] theorem Ports.setEncode_maxFrameSize : (q.setEncode m cap).maxFrameSize = cap := rfl

/-- `enc_len` carries the list's length whole: it fits the 16-bit port (R61). -/
theorem Ports.setEncode_encLen_toNat (h : m.length ≤ 65535) : (q.setEncode m cap).encLen.toNat = m.length := by
  have hlt : m.length < 2 ^ 16 := by omega
  exact (BitVec.toNat_ofNat ..).trans (Nat.mod_eq_of_lt hlt)

/-- `chk_len` carries the list's length whole: it fits the 8-bit port (R61). -/
theorem Ports.setChksum_chkLen_toNat (h : m.length ≤ 255) : (q.setChksum m).chkLen.toNat = m.length := by
  have hlt : m.length < 2 ^ 8 := by omega
  exact (BitVec.toNat_ofNat ..).trans (Nat.mod_eq_of_lt hlt)

theorem Ports.setEncode_encOperand (h : m.length ≤ 65535) : (q.setEncode m cap).encOperand = m := by
  rw [Ports.encOperand, q.setEncode_encLen_toNat m cap h]
  exact lanes_self m

theorem Ports.setChksum_chkOperand (h : m.length ≤ 255) : (q.setChksum m).chkOperand = m := by
  rw [Ports.chkOperand, q.setChksum_chkLen_toNat m h]
  exact lanes_self m

/-- The output frame of an `ENCODE` line whose two checks pass (R80). -/
theorem frameOut_setEncode_of_fits (h1 : 1 ≤ m.length) (h2 : m.length ≤ 255) (h3 : m.length + 4 ≤ cap.toNat) :
    (encodePayload (q.setEncode m cap)).frameOut = frameOf m := by
  have hlen := q.setEncode_encLen_toNat m cap (by omega)
  have hop := q.setEncode_encOperand m cap (by omega)
  rcases encodePayload_cases (q.setEncode m cap) with ⟨hbad, _⟩ | ⟨_, _, hsmall, _⟩ | ⟨_, _, _, hok⟩
  · omega
  · rw [hlen, q.setEncode_maxFrameSize] at hsmall
    omega
  · rw [hok, hop, EncResult.frameOut]

/-- An `ENCODE` line that fails one of its checks leaves no output frame (R79). -/
theorem frameOut_setEncode_of_fails (hm : m.length ≤ 65535)
    (h : m.length = 0 ∨ 255 < m.length ∨ cap.toNat < m.length + 4) :
    (encodePayload (q.setEncode m cap)).frameOut = [] := by
  have hlen := q.setEncode_encLen_toNat m cap hm
  rcases encodePayload_cases (q.setEncode m cap) with ⟨_, hbad⟩ | ⟨_, _, _, hsmall⟩ | ⟨_, _, hfits, _⟩
  · rw [hbad, EncResult.frameOut]
  · rw [hsmall, EncResult.frameOut]
  · rw [hlen, q.setEncode_maxFrameSize] at hfits
    omega

end Operands

/-- The word of `ACCEPT b` is the number `b` (R57, R58). -/
theorem encode_accept_toNat (b : Byte) : (Sys2Proof.encode (.accept b)).toNat = b.toNat := by
  have hlt : b.toNat < 1024 := by omega
  simpa [Sys2Proof.encode] using hlt

theorem assemble_cons (c : AsmContext) (a : AsmLine) (as : List AsmLine) :
    assemble c (a :: as) = (a.expand c).2 ++ assemble (a.expand c).1 as := rfl

theorem assemble_singleton (c : AsmContext) (a : AsmLine) : assemble c [a] = (a.expand c).2 :=
  List.append_nil _

/-- One `ACCEPT` line a byte issues what one `FEED` of the bytes does: an `ACCEPT` line leaves the context alone (R68). -/
theorem assemble_map_accept (c : AsmContext) (bs : List Byte) :
    assemble c (bs.map .accept) = feedEvents c.ports bs := by
  induction bs with
  | nil => rfl
  | cons b bs ih =>
    calc assemble c ((b :: bs).map .accept)
        = feedEvents c.ports [b] ++ assemble c (bs.map .accept) := rfl
      _ = feedEvents c.ports (b :: bs) := by rw [ih]; rfl

/-- `FEED @frame` feeds the output frame that the lines before it left (R68). -/
theorem expand_feedFrame (c : AsmContext) : AsmLine.feedFrame.expand c = AsmLine.expand c (.feed c.frame) := rfl

theorem expand_encode_frame (c : AsmContext) (m : List Byte) (cap : Half) :
    ((AsmLine.encode m cap).expand c).1.frame = (encodePayload (c.ports.setEncode m cap)).frameOut := rfl

/-- After an `ENCODE` line, `FEED @frame` is the `FEED` of that line's output frame (R68). -/
theorem assemble_encode_feedFrame (c : AsmContext) (m : List Byte) (cap : Half) :
    assemble c [.encode m cap, .feedFrame] =
      assemble c [.encode m cap, .feed (encodePayload (c.ports.setEncode m cap)).frameOut] := by
  simp only [assemble_cons, expand_feedFrame, expand_encode_frame]

/-- A `FEED` of no bytes issues nothing. -/
theorem assemble_encode_feed_nil (c : AsmContext) (m : List Byte) (cap : Half) :
    assemble c [.encode m cap, .feed []] = assemble c [.encode m cap] := rfl

/-- Settles O52: a length that fits its port makes the operand the list of the line, and `FEED @frame` is the `FEED` of the
frame that the encoder's checks leave. -/
theorem assemblerLinesExpandAsWritten : Obligations.AssemblerLinesExpandAsWritten := by
  refine ⟨fun c b => ⟨_, encode_accept_toNat b, rfl⟩, fun c m cap hm => ?encode, fun c m hm => ?chksum, fun _ => rfl,
    fun c bs => ?feed, fun c m cap h1 h2 h3 => ?fits, fun c m cap hm h => ?fails⟩
  case encode =>
    exact ⟨_, rfl, c.ports.setEncode_encOperand m cap hm, c.ports.setEncode_encLen_toNat m cap hm, rfl⟩
  case chksum =>
    exact ⟨_, rfl, c.ports.setChksum_chkOperand m hm, c.ports.setChksum_chkLen_toNat m hm⟩
  case feed => rw [assemble_singleton, assemble_map_accept]; rfl
  case fits => rw [assemble_encode_feedFrame, frameOut_setEncode_of_fits c.ports m cap h1 h2 h3]
  case fails => rw [assemble_encode_feedFrame, frameOut_setEncode_of_fails c.ports m cap hm h, assemble_encode_feed_nil]

end Sys2Proof.Machine

/-! ### The decoder by the number of the word, and the rows of the opcode map (R57, R59) -/

namespace Sys2Proof

theorem opField_toNat (w : CmdWord) : (opField w).toNat = w.toNat / 256 := by
  have hw : w.toNat < 1024 := w.isLt
  simp only [opField, BitVec.extractLsb'_toNat, Nat.shiftRight_eq_div_pow]
  omega

theorem immField_toNat (w : CmdWord) : (immField w).toNat = w.toNat % 256 := by
  simp [immField]

/-- A word below 0x100 has `op` 00 (R59). -/
theorem decode_of_toNat_lt {w : CmdWord} (h : w.toNat < 0x100) : decode w = .ok (.accept (w.setWidth 8)) := by
  have hop : opField w = 0b00#2 := by
    apply BitVec.eq_of_toNat_eq
    rw [opField_toNat, Nat.div_eq_of_lt h]
    rfl
  have himm : immField w = w.setWidth 8 := by
    apply BitVec.eq_of_toNat_eq
    rw [immField_toNat, BitVec.toNat_setWidth]
  rw [decode, if_pos hop, himm]

/-- From 0x100 on, a word with a non-zero `imm8` is reserved whatever its `op` (R59, R60). -/
theorem decode_of_reserved {w : CmdWord} (h1 : 0x100 < w.toNat) (h2 : w.toNat ≠ 0x200) (h3 : w.toNat ≠ 0x300) :
    decode w = .error (.reservedWord w) := by
  have hw : w.toNat < 1024 := w.isLt
  have hop : opField w ≠ 0b00#2 := by
    rw [Ne, ← BitVec.toNat_inj, opField_toNat]
    simp only [BitVec.toNat_ofNat]
    omega
  have himm : immField w ≠ 0x00#8 := by
    rw [Ne, ← BitVec.toNat_inj, immField_toNat]
    simp only [BitVec.toNat_ofNat]
    omega
  have hwhen (i : Instr) : whenImmZero w i = .error (.reservedWord w) := if_neg himm
  simp only [decode, if_neg hop, hwhen, ite_self]

/-- The five ranges of words that the decoder tells apart (R59). -/
theorem word_cases (w : CmdWord) :
    w.toNat < 0x100 ∨ w = 0x100#10 ∨ w = 0x200#10 ∨ w = 0x300#10 ∨
      (0x100 < w.toNat ∧ w.toNat ≠ 0x200 ∧ w.toNat ≠ 0x300) := by
  simp only [← BitVec.toNat_inj, BitVec.toNat_ofNat]
  omega

/-- Settles O2: words below 0x100 have `op` 00, three words are fixed, and the others have a non-zero `imm8`. -/
theorem decoderIsTotalOnAllWords : Obligations.DecoderIsTotalOnAllWords := by
  intro w
  refine ⟨fun h => ?accept, fun h => ?encode, fun h => ?chksum, fun h => ?reset, decode_of_reserved⟩
  case accept => rw [decode_of_toNat_lt h, BitVec.ofNat_toNat]
  case encode =>
    obtain rfl : w = 0x100#10 := BitVec.eq_of_toNat_eq h
    rfl
  case chksum =>
    obtain rfl : w = 0x200#10 := BitVec.eq_of_toNat_eq h
    rfl
  case reset =>
    obtain rfl : w = 0x300#10 := BitVec.eq_of_toNat_eq h
    rfl

/-- The mask 0x300 of the `ACCEPT` row keeps `op` alone. -/
theorem and_opMask_eq_zero_iff (w : CmdWord) : w &&& 0x300#10 = 0x000#10 ↔ w.toNat < 0x100 := by
  revert w; decide

/-- The mask 0x3FF of the other rows keeps the whole word. -/
theorem and_fullMask (w : CmdWord) : w &&& 0x3FF#10 = w := BitVec.and_allOnes

theorem covers_accept (n : String) (w : CmdWord) :
    OpRow.covers ⟨n, 0x000#10, 0x300#10⟩ w = decide (w.toNat < 0x100) := by
  simp only [OpRow.covers, Bool.beq_eq_decide_eq, and_opMask_eq_zero_iff]

theorem covers_full (n : String) (m w : CmdWord) :
    OpRow.covers ⟨n, m, 0x3FF#10⟩ w = decide (w.toNat = m.toNat) := by
  simp only [OpRow.covers, Bool.beq_eq_decide_eq, and_fullMask, BitVec.toNat_inj]

/-- The rows that cover a word are the row of the operation it decodes to, or none if it is reserved (R57, R60). -/
theorem filter_covers_eq (w : CmdWord) :
    opcodeMap.filter (fun r => r.covers w) = ((decode w).toOption.map opcodeRow).toList := by
  rcases word_cases w with h | rfl | rfl | rfl | ⟨h1, h2, h3⟩
  · have hne : w.toNat ≠ 0x100 ∧ w.toNat ≠ 0x200 ∧ w.toNat ≠ 0x300 := by omega
    rw [decode_of_toNat_lt h]
    simp [opcodeMap, covers_accept, covers_full, h, hne, Except.toOption, opcodeRow]
  · decide
  · decide
  · decide
  · have hne : ¬ w.toNat < 0x100 ∧ w.toNat ≠ 0x100 := by omega
    rw [decode_of_reserved h1 h2 h3]
    simp [opcodeMap, covers_accept, covers_full, h2, h3, hne, Except.toOption]

/-- Settles O1: each row's words decode to its operation, and the rows that cover a word are those of what it decodes to. -/
theorem opcodeRowsDecodeToTheirOperations : Obligations.OpcodeRowsDecodeToTheirOperations := by
  intro w
  simp only [and_fullMask, filter_covers_eq]
  refine ⟨fun h => decode_of_toNat_lt ((and_opMask_eq_zero_iff w).mp h), ?encode, ?chksum, ?reset, ?rows⟩
  case encode => rintro rfl; rfl
  case chksum => rintro rfl; rfl
  case reset => rintro rfl; rfl
  case rows => cases decode w <;> simp [Except.toOption]

end Sys2Proof

/-! ### The codes on the result ports (R63, R64, R65) -/

namespace Sys2Proof.Machine

@[simp] theorem AcceptOutcome.ports_outcome (o : AcceptOutcome) : o.ports.outcome = o.code := by
  cases o <;> rfl

/-- `reason` shows 00 with every outcome: it is the code of the only reason, and what the others drive (R62, R64). -/
@[simp] theorem AcceptOutcome.ports_reason (o : AcceptOutcome) : o.ports.reason = 0b00#2 := by
  cases o with
  | waiting => rfl
  | complete _ => rfl
  | rejected r => cases r; rfl

theorem AcceptOutcome.code_ne_undriven (o : AcceptOutcome) : o.code ≠ 0b11#2 := by
  cases o <;> simp [AcceptOutcome.code]

@[simp] theorem EncResult.ports_encStatus (r : EncResult) : r.ports.encStatus = r.code := by
  cases r <;> rfl

theorem EncResult.code_ne_undriven (r : EncResult) : r.code ≠ 0b11#2 := by
  cases r with
  | ok _ => simp [EncResult.code]
  | error e => cases e <;> simp [EncResult.code]

/-- Settles O48: `outcome` and `enc_status` show the codes of the tables, of which none is 11, and `reason` is 00. -/
theorem resultCodesAreAsTabled : Obligations.ResultCodesAreAsTabled :=
  ⟨rfl, fun _ => rfl, fun r => ⟨rfl, AcceptOutcome.ports_reason (.rejected r)⟩,
    fun o => ⟨o.ports_outcome ▸ o.code_ne_undriven, o.ports_reason⟩,
    fun _ => rfl, rfl, rfl, fun r => r.ports_encStatus ▸ r.code_ne_undriven⟩

end Sys2Proof.Machine

/-! ### The checksum as a number (R69, R72) -/

namespace Sys2Proof.Machine

/-- The wrapping additions of `sum8` reduce only once, at the end (R69). -/
theorem sum8_toNat (p : List Byte) : (sum8 p).toNat = (p.map BitVec.toNat).sum % 256 := by
  induction p with
  | nil => rfl
  | cons b bs ih =>
    rw [sum8_cons, BitVec.toNat_add, ih, Nat.add_mod_mod, List.map_cons, List.sum_cons]

/-- The bytes of the `CHKSUM` operand as numbers are the lanes below `chk_len` (R61). -/
theorem Ports.chkOperand_map_toNat (q : Ports) :
    q.chkOperand.map BitVec.toNat = (List.range q.chkLen.toNat).map fun i => (q.chkLane i).toNat :=
  List.map_map

/-- Settles O17: `sum8` is the fold by definition, and the exact sum by induction on the bytes. -/
theorem sumEightIsTheSumModulo256 : Obligations.SumEightIsTheSumModulo256 :=
  fun p => ⟨sum8_toNat p, rfl⟩

/-- Settles O19: `CHKSUM` returns `sum8` of its operand, whose bytes are the lanes below `chk_len`. -/
theorem chksumReturnsTheSumOfItsPayload : Obligations.ChksumReturnsTheSumOfItsPayload := by
  refine ⟨rfl, fun s => ⟨sum8 s.ports.chkOperand, exec_chksum s, ?sum⟩⟩
  case sum => rw [sum8_toNat, Ports.chkOperand_map_toNat]

end Sys2Proof.Machine

/-! ### The answers of the encoder, one a check (R76 to R78) -/

namespace Sys2Proof.Machine

section Answers

variable {q : Ports}

theorem encodePayload_of_badLen (h : q.encLen.toNat = 0 ∨ 255 < q.encLen.toNat) :
    encodePayload q = .error .invalidParameter := by
  rcases encodePayload_cases q with ⟨_, hbad⟩ | ⟨h1, h2, _, _⟩ | ⟨h1, h2, _, _⟩
  · exact hbad
  · omega
  · omega

theorem encodePayload_of_small (h1 : 1 ≤ q.encLen.toNat) (h2 : q.encLen.toNat ≤ 255)
    (h : q.maxFrameSize.toNat < q.encLen.toNat + 4) : encodePayload q = .error .bufferTooSmall := by
  rcases encodePayload_cases q with ⟨_, _⟩ | ⟨_, _, _, hsmall⟩ | ⟨_, _, _, _⟩
  · omega
  · exact hsmall
  · omega

theorem encodePayload_of_fits (h1 : 1 ≤ q.encLen.toNat) (h2 : q.encLen.toNat ≤ 255)
    (h : q.encLen.toNat + 4 ≤ q.maxFrameSize.toNat) : encodePayload q = .ok (frameOf q.encOperand) := by
  rcases encodePayload_cases q with ⟨_, _⟩ | ⟨_, _, _, _⟩ | ⟨_, _, _, hok⟩
  · omega
  · omega
  · exact hok

end Answers

/-- Settles O21: the length check comes first and does not look at the capacity. -/
theorem encodeRejectsBadLengths : Obligations.EncodeRejectsBadLengths := by
  intro s hbad
  rw [exec_encode, encodePayload_of_badLen hbad]

/-- Settles O22: behind a passed length check the capacity check alone decides. -/
theorem encodeChecksTheCapacity : Obligations.EncodeChecksTheCapacity := by
  intro s h1 h2
  refine ⟨fun hsmall => ?small, fun hfits => ⟨frameOf s.ports.encOperand, ?fits⟩⟩
  case small => rw [exec_encode, encodePayload_of_small h1 h2 hsmall]
  case fits => rw [exec_encode, encodePayload_of_fits h1 h2 hfits]

/-- Settles O24: `ENCODE` writes the result alone, and the ports of every error are those of no frame. -/
theorem failedEncodeHasNoEffect : Obligations.FailedEncodeHasNoEffect := by
  intro s t e hexec _
  rw [exec_encode] at hexec
  cases hexec
  exact ⟨rfl, rfl, rfl⟩

end Sys2Proof.Machine

/-! ### The wire frame, byte by byte (R51, R80) -/

namespace Sys2Proof.Machine

section Frame

variable (p : List Byte)

theorem frameOf_start : (frameOf p)[0]? = some 0x02#8 := rfl

theorem frameOf_len : (frameOf p)[1]? = some (BitVec.ofNat 8 p.length) := rfl

/-- From index 2 on, a frame is its payload and the two bytes after it. -/
theorem frameOf_getElem?_two_add (i : Nat) : (frameOf p)[2 + i]? = (p ++ [sum8 p, 0x03#8])[i]? := by
  rw [Nat.add_comm 2 i]
  rfl

theorem frameOf_payload {i : Nat} (h : i < p.length) : (frameOf p)[2 + i]? = p[i]? := by
  rw [frameOf_getElem?_two_add, List.getElem?_append_left h]

theorem frameOf_chk : (frameOf p)[p.length + 2]? = some (sum8 p) := by
  rw [Nat.add_comm, frameOf_getElem?_two_add, List.getElem?_append_right le_rfl, Nat.sub_self]
  rfl

theorem frameOf_end : (frameOf p)[p.length + 3]? = some 0x03#8 := by
  have hpos : p.length + 3 = 2 + (p.length + 1) := by omega
  rw [hpos, frameOf_getElem?_two_add, List.getElem?_append_right (Nat.le_add_right ..), Nat.add_sub_cancel_left]
  rfl

end Frame

/-! ### The operand of `ENCODE` (R61) -/

section Operand

variable (q : Ports)

@[simp] theorem Ports.encOperand_length : q.encOperand.length = q.encLen.toNat :=
  lanes_length ..

theorem Ports.encOperand_getElem? {i : Nat} (h : i < q.encLen.toNat) : q.encOperand[i]? = some (q.encLane i) :=
  lanes_getElem? _ _ _ h

/-- The bytes of the `ENCODE` operand as numbers are the lanes below `enc_len`. -/
theorem Ports.encOperand_map_toNat :
    q.encOperand.map BitVec.toNat = (List.range q.encLen.toNat).map fun i => (q.encLane i).toNat :=
  List.map_map

end Operand

/-- Settles O23: the frame is that of the operand, whose bytes are the lanes below `enc_len`. -/
theorem encodeLaysOutTheFrame : Obligations.EncodeLaysOutTheFrame := by
  intro s h1 h2 hfits
  have hlen := s.ports.encOperand_length
  refine ⟨frameOf s.ports.encOperand, sum8 s.ports.encOperand, ?result, ?length, frameOf_start _, ?len,
    fun i hi => ?payload, ?chk, ?sum, ?fin⟩
  case result => rw [exec_encode, encodePayload_of_fits h1 h2 hfits]
  case length => rw [frameOf_length, hlen]
  case len => rw [frameOf_len, hlen, BitVec.ofNat_toNat]
  case payload => rw [frameOf_payload _ (hlen.symm ▸ hi), s.ports.encOperand_getElem? hi]
  case chk => rw [← hlen, frameOf_chk]
  case sum => rw [sum8_toNat, Ports.encOperand_map_toNat]
  case fin => rw [← hlen, frameOf_end]

end Sys2Proof.Machine

/-! ### What the encoder and the checksum unit read (R41, R81) -/

namespace Sys2Proof.Machine

section Reads

variable {q q' : Ports}

theorem Ports.encOperand_congr (hlen : q.encLen = q'.encLen)
    (h : ∀ i < q'.encLen.toNat, q.encLane i = q'.encLane i) : q.encOperand = q'.encOperand := by
  rw [Ports.encOperand, hlen]
  exact lanes_congr h

theorem Ports.chkOperand_congr (hlen : q.chkLen = q'.chkLen)
    (h : ∀ i < q'.chkLen.toNat, q.chkLane i = q'.chkLane i) : q.chkOperand = q'.chkOperand := by
  rw [Ports.chkOperand, hlen]
  exact lanes_congr h

/-- The encoder looks at the length, the capacity and the operand, and at nothing else of the ports (R81). -/
theorem encodePayload_congr (hlen : q.encLen = q'.encLen) (hcap : q.maxFrameSize = q'.maxFrameSize)
    (hop : q.encOperand = q'.encOperand) : encodePayload q = encodePayload q' := by
  simp only [encodePayload, hlen, hcap, hop]

end Reads

/-- Settles O20: lengths and the lanes below them fix the operands, and the results depend on nothing else. -/
theorem lanesBeyondTheLengthAreNotRead : Obligations.LanesBeyondTheLengthAreNotRead := by
  intro s q
  refine ⟨fun hlen hcap hlanes => ⟨_, exec_encode s, ?encode⟩, fun hlen hlanes => ⟨_, exec_chksum s, ?chksum⟩⟩
  case encode =>
    have hop := Ports.encOperand_congr hlen hlanes
    rw [exec_encode, encodePayload_congr hlen hcap hop]
  case chksum => rw [exec_chksum, Ports.chkOperand_congr hlen hlanes]

end Sys2Proof.Machine

/-! ### The rows of the parser's table, one equation each (R86 to R94) -/

namespace Sys2Proof.Machine

section Rows

variable {p : Parser} {b : Byte}

theorem Parser.accept_startMarker (hst : p.st = .awaitingStart) (hb : b = 0x02#8) :
    p.accept b = (⟨.awaitingLength, [], 0#8, 0#8, 0#8⟩, .waiting) := by
  simpa [hst, hb] using p.accept_cases b

theorem Parser.accept_noise (hst : p.st = .awaitingStart) (hb : b ≠ 0x02#8) :
    p.accept b = (⟨.awaitingStart, [], 0#8, 0#8, 0#8⟩, .waiting) := by
  simpa [hst, hb] using p.accept_cases b

theorem Parser.accept_length (hst : p.st = .awaitingLength) (hb : b ≠ 0x00#8) :
    p.accept b = ({ p with st := .awaitingPayload, expLen := b }, .waiting) := by
  simpa [hst, hb] using p.accept_cases b

theorem Parser.accept_zeroLength (hst : p.st = .awaitingLength) (hb : b = 0x00#8) :
    p.accept b = (⟨.awaitingStart, [], 0#8, 0#8, 0#8⟩, .waiting) := by
  simpa [hst, hb] using p.accept_cases b

theorem Parser.accept_payload (hst : p.st = .awaitingPayload) (hlen : p.buf.length + 1 ≠ p.expLen.toNat) :
    p.accept b = ({ p with buf := p.buf ++ [b], acc := p.acc + b }, .waiting) := by
  simpa [hst, hlen] using p.accept_cases b

theorem Parser.accept_lastPayload (hst : p.st = .awaitingPayload) (hlen : p.buf.length + 1 = p.expLen.toNat) :
    p.accept b = ({ p with st := .awaitingChecksum, buf := p.buf ++ [b], acc := p.acc + b }, .waiting) := by
  simpa [hst, hlen] using p.accept_cases b

theorem Parser.accept_checksum (hst : p.st = .awaitingChecksum) :
    p.accept b = ({ p with st := .awaitingEnd, rxChk := b }, .waiting) := by
  simpa [hst] using p.accept_cases b

theorem Parser.accept_complete (hst : p.st = .awaitingEnd) (hb : b = 0x03#8) (hchk : p.rxChk = p.acc) :
    p.accept b = (⟨.awaitingStart, [], 0#8, 0#8, 0#8⟩, .complete p.buf) := by
  simpa [hst, hb, hchk] using p.accept_cases b

theorem Parser.accept_rejected (hst : p.st = .awaitingEnd) (h : b ≠ 0x03#8 ∨ p.rxChk ≠ p.acc) :
    p.accept b = (⟨.awaitingStart, [], 0#8, 0#8, 0#8⟩, .rejected .checksumOrFramingError) := by
  rcases h with hb | hchk
  · simpa [hst, hb] using p.accept_cases b
  · simpa [hst, hchk] using p.accept_cases b

end Rows

/-- `ACCEPT` does to the state what its transition does to the parser, and returns the outcome (R84). -/
theorem exec_accept_of_accept_eq {s : State} {b : Byte} {q : Parser} {o : AcceptOutcome}
    (h : s.parser.accept b = (q, o)) :
    exec (.accept b) s = .next { s with parser := q, result := some (.accept o) } := by
  rw [exec_accept, h]

/-! ### What the invariant says of the parser before and after a payload (R33) -/

section Invariant

variable {p : Parser}

/-- Before a payload the registers are cleared already, so `Clear()` changes no value. -/
theorem Parser.Inv.clear_eq_self (hinv : p.Inv) (hst : p.st = .awaitingStart ∨ p.st = .awaitingLength) :
    p.clear = p := by
  obtain ⟨hstart, hlength, _⟩ := hinv
  obtain ⟨st, buf, expLen, acc, rxChk⟩ := p
  obtain ⟨rfl, rfl, rfl, rfl⟩ : buf = [] ∧ expLen = 0#8 ∧ acc = 0#8 ∧ rxChk = 0#8 := hst.elim hstart hlength
  rfl

/-- Before a payload, moving to a state is the same with and without the clear. -/
theorem Parser.Inv.goTo_eq_cleared (hinv : p.Inv) (hst : p.st = .awaitingStart ∨ p.st = .awaitingLength)
    (v : ParserState) : { p with st := v } = (⟨v, [], 0#8, 0#8, 0#8⟩ : Parser) := by
  rw [← p.clear_goTo v, hinv.clear_eq_self hst, Parser.goTo]

theorem Parser.Inv.eq_cleared_of_awaitingStart (hinv : p.Inv) (hst : p.st = .awaitingStart) :
    p = ⟨.awaitingStart, [], 0#8, 0#8, 0#8⟩ := by
  rw [← hinv.goTo_eq_cleared (.inl hst), ← hst]

/-- At the END position the buffer is a whole payload: of the declared length, with its checksum in `acc`. -/
theorem Parser.Inv.buf_of_awaitingEnd (hinv : p.Inv) (hst : p.st = .awaitingEnd) :
    p.buf.length = p.expLen.toNat ∧ p.acc = sum8 p.buf := by
  obtain ⟨_, _, _, _, hend, _⟩ := hinv
  obtain ⟨hlen, _, hacc⟩ := hend hst
  exact ⟨hlen, hacc⟩

end Invariant

/-- `out_len` of a complete payload is its declared length (R93). -/
theorem AcceptOutcome.ports_complete {m : List Byte} {n : Byte} (h : m.length = n.toNat) :
    (AcceptOutcome.complete m).ports = ⟨0b01#2, 0b00#2, n, m⟩ := by
  rw [AcceptOutcome.ports, AcceptOutcome.code, h, BitVec.ofNat_toNat, BitVec.setWidth_eq]

/-! ### `ACCEPT` state by state, and `RESET` (R86 to R94, R101) -/

/-- Settles O27: rows 1 and 2, whose clear changes no value under the invariant. -/
theorem acceptInAwaitingStart : Obligations.AcceptInAwaitingStart := by
  intro s b hst
  refine ⟨fun hb => ?marker, fun hb => ?noise, fun hinv hb => ?markerInv, fun hinv hb => ?noiseInv⟩
  case marker => exact exec_accept_of_accept_eq (Parser.accept_startMarker hst hb)
  case noise => exact exec_accept_of_accept_eq (Parser.accept_noise hst hb)
  case markerInv =>
    rw [hinv.goTo_eq_cleared (.inl hst)]
    exact exec_accept_of_accept_eq (Parser.accept_startMarker hst hb)
  case noiseInv =>
    have hsame : s.parser.accept b = (s.parser, .waiting) := by
      rw [Parser.accept_noise hst hb, ← hinv.eq_cleared_of_awaitingStart hst]
    exact exec_accept_of_accept_eq hsame

/-- Settles O28: rows 3 and 4; the clear of row 4 changes no value under the invariant. -/
theorem acceptInAwaitingLength : Obligations.AcceptInAwaitingLength := by
  intro s b hst
  refine ⟨fun hb => ?length, fun hb => ?zero, fun hinv hb => ?zeroInv⟩
  case length => exact exec_accept_of_accept_eq (Parser.accept_length hst hb)
  case zero => exact exec_accept_of_accept_eq (Parser.accept_zeroLength hst hb)
  case zeroInv =>
    rw [hinv.goTo_eq_cleared (.inr hst)]
    exact exec_accept_of_accept_eq (Parser.accept_zeroLength hst hb)

/-- Settles O29: the two cases of row 5. -/
theorem acceptInAwaitingPayload : Obligations.AcceptInAwaitingPayload :=
  fun _ _ hst =>
    ⟨fun hlen => exec_accept_of_accept_eq (Parser.accept_payload hst hlen),
      fun hlen => exec_accept_of_accept_eq (Parser.accept_lastPayload hst hlen)⟩

/-- Settles O30: row 6, whatever the byte. -/
theorem acceptInAwaitingChecksum : Obligations.AcceptInAwaitingChecksum :=
  fun _ _ hst => exec_accept_of_accept_eq (Parser.accept_checksum hst)

/-- Settles O31: rows 7 and 8, and the ports of their outcomes; the invariant makes the buffer a whole payload. -/
theorem acceptInAwaitingEnd : Obligations.AcceptInAwaitingEnd := by
  intro s b hst
  refine ⟨fun hb hchk => ?complete, fun hinv => ?payload, fun h => ?rejected, rfl⟩
  case complete => exact exec_accept_of_accept_eq (Parser.accept_complete hst hb hchk)
  case payload =>
    obtain ⟨hlen, hacc⟩ := hinv.buf_of_awaitingEnd hst
    exact ⟨hlen, hacc, AcceptOutcome.ports_complete hlen⟩
  case rejected => exact exec_accept_of_accept_eq (Parser.accept_rejected hst h)

/-- Settles O32: `RESET` gives the reset values, which the parser already has in `AwaitingStart` under the invariant. -/
theorem resetReturnsTheParserToItsInitialState : Obligations.ResetReturnsTheParserToItsInitialState := by
  refine ⟨rfl, exec_reset, fun s hinv hst => ?unchanged⟩
  case unchanged =>
    have hreset : s.parser = Parser.reset := hinv.eq_cleared_of_awaitingStart hst
    rw [exec_reset, ← hreset]

end Sys2Proof.Machine

/-! ### Reset (R36, R117) -/

namespace Sys2Proof.Machine

/-- Settles O11: the power-on state holds the reset parser by definition, and `exec_reset` puts the same one in place of
whatever parser `RESET` finds. -/
theorem resetLeavesTheResetValues : Obligations.ResetLeavesTheResetValues := by
  refine ⟨rfl, fun s => ?afterReset⟩
  case afterReset => exact ⟨_, exec_reset s, rfl⟩

end Sys2Proof.Machine

/-! ### Decoding and encoding, both ways (R57 to R60) -/

namespace Sys2Proof

/-- No bit of an encoding is lost: every operation is what its word decodes to. -/
theorem decode_encode (i : Instr) : decode (encode i) = .ok i := by
  cases i with
  | accept b => exact Laws.RoundTrip.accept b
  | encode => exact Laws.RoundTrip.encode
  | chksum => exact Laws.RoundTrip.chksum
  | reset => exact Laws.RoundTrip.reset

/-- A word that decodes is the word of what it decodes to: no other word has that meaning. -/
theorem encode_eq_of_decode {w : CmdWord} {i : Instr} (h : decode w = .ok i) : encode i = w := by
  rcases word_cases w with hlt | rfl | rfl | rfl | ⟨h1, h2, h3⟩
  · rw [decode_of_toNat_lt hlt] at h
    cases h
    apply BitVec.eq_of_toNat_eq
    rw [Machine.encode_accept_toNat, BitVec.toNat_setWidth, Nat.mod_eq_of_lt hlt]
  · cases h
    rfl
  · cases h
    rfl
  · cases h
    rfl
  · rw [decode_of_reserved h1 h2 h3] at h
    cases h

theorem decode_eq_ok_iff {w : CmdWord} {i : Instr} : decode w = .ok i ↔ encode i = w :=
  ⟨encode_eq_of_decode, fun h => h ▸ decode_encode i⟩

/-- The reserved words are those that no operation encodes to (R60). -/
theorem decode_error_iff {w : CmdWord} : (∃ e, decode w = .error e) ↔ ∀ i, encode i ≠ w := by
  simp only [Ne, ← decode_eq_ok_iff]
  cases decode w <;> simp

/-- Settles O4: `decode` undoes `encode`, and by the ranges of `word_cases` a word that decodes is the encoding. -/
theorem decodeAndEncodeAgree : Obligations.DecodeAndEncodeAgree := by
  refine fun w i => ⟨?wellFormed, decode_eq_ok_iff⟩
  case wellFormed => cases i <;> rfl

/-- Settles O5: the decoder evaluates to each answer. -/
theorem decodeVectors : Obligations.DecodeVectors :=
  ⟨rfl, rfl, rfl, rfl, rfl, rfl, rfl, rfl, rfl⟩

end Sys2Proof

/-! ### What an operation does to the parser, and what it returns -/

namespace Sys2Proof.Machine

/-- The parser that an operation leaves, out of the one it finds: only `ACCEPT` and `RESET` move it (R27, R28). -/
def parserAfter : Instr → Parser → Parser
  | .accept b, p => (p.accept b).1
  | .encode, p => p
  | .chksum, p => p
  | .reset, _ => Parser.reset

/-- What an operation returns, out of the parser it finds and the ports of its transaction (R29, R62). -/
def responseOf : Instr → Parser → Ports → Response
  | .accept b, p, _ => .accept (p.accept b).2
  | .encode, _, q => .encode (encodePayload q)
  | .chksum, _, q => .chksum (sum8 q.chkOperand)
  | .reset, _, _ => .reset

/-- An operation reads the parser and the ports, and writes the parser and the result. -/
theorem exec_eq (i : Instr) (s : State) :
    exec i s = .next { s with parser := parserAfter i s.parser, result := some (responseOf i s.parser s.ports) } := by
  cases i <;> rfl

/-- `ENCODE` and `CHKSUM`, the operations of the two units without registers (R20). -/
theorem parserAfter_of_stateless {i : Instr} (h : i = .encode ∨ i = .chksum) (p : Parser) : parserAfter i p = p := by
  rcases h with rfl | rfl <;> rfl

theorem responseOf_of_stateless {i : Instr} (h : i = .encode ∨ i = .chksum) (p p' : Parser) (q : Ports) :
    responseOf i p q = responseOf i p' q := by
  rcases h with rfl | rfl <;> rfl

/-! ### One step, by the event it serves -/

section Steps

variable {s : State} {r : Request} {rest : List HostEvent}

/-- The transaction of an issued operation: its ports, its effect on the parser, its result (R31, R59). -/
theorem step_of_decode {i : Instr} (hp : s.pending = .issue r :: rest) (hd : decode r.cmd = .ok i) :
    step s = .next ⟨parserAfter i s.parser, r.ports, rest, some (responseOf i s.parser r.ports)⟩ := by
  rcases step_issue s r rest hp with ⟨j, hj, hstep⟩ | ⟨e, he, _⟩
  · obtain rfl : i = j := Except.ok.inj (hd.symm.trans hj)
    rw [hstep, exec_eq]
    rfl
  · rw [hd] at he
    cases he

theorem step_of_reserved {e : DecodeError} (hp : s.pending = .issue r :: rest) (hd : decode r.cmd = .error e) :
    step s = .refused (.reservedWord r.cmd) := by
  rcases step_issue s r rest hp with ⟨i, hi, _⟩ | ⟨_, _, hstep⟩
  · rw [hd] at hi
    cases hi
  · exact hstep

/-- A step ends in a next state or in the refusal of the reserved word that is issued; it never faults (R60, R104). -/
theorem step_next_or_refused (s : State) :
    (∃ t, step s = .next t) ∨
    (∃ r rest e, s.pending = .issue r :: rest ∧ decode r.cmd = .error e ∧ step s = .refused (.reservedWord r.cmd)) := by
  rcases hp : s.pending with _ | ⟨_ | _ | _, rest⟩
  case nil => exact .inl ⟨_, step_nil s hp⟩
  case issue r =>
    cases hd : decode r.cmd with
    | ok i => exact .inl ⟨_, step_of_decode hp hd⟩
    | error e => exact .inr ⟨r, rest, e, rfl, hd, step_of_reserved hp hd⟩
  case idle => exact .inl ⟨_, step_idle s rest hp⟩
  case powerOn => exact .inl ⟨_, step_powerOn s rest hp⟩

end Steps

end Sys2Proof.Machine

/-! ### The invariant (R23, R33) -/

namespace Sys2Proof.Machine

section Invariant

variable {p : Parser}

/-- A parser with cleared registers meets the rows of the table before a payload. -/
theorem Parser.inv_cleared {v : ParserState} (hv : v = .awaitingStart ∨ v = .awaitingLength) :
    Parser.Inv ⟨v, [], 0#8, 0#8, 0#8⟩ := by
  rcases hv with rfl | rfl <;> decide

theorem Parser.inv_reset : Parser.reset.Inv := Parser.inv_cleared (.inl rfl)

theorem Parser.expLen_toNat_le (p : Parser) : p.expLen.toNat ≤ 255 :=
  Nat.le_of_lt_succ p.expLen.isLt

/-- The row of `AwaitingPayload`: a byte is still missing. -/
theorem Parser.inv_payload (hst : p.st = .awaitingPayload) (hlen : p.buf.length < p.expLen.toNat)
    (hacc : p.acc = sum8 p.buf) (hchk : p.rxChk = 0#8) : p.Inv := by
  have hmax : p.buf.length ≤ Config.bufCap := hlen.le.trans p.expLen_toNat_le
  refine ⟨?_, ?_, fun _ => ⟨hlen, Nat.one_le_of_lt hlen, hacc, hchk⟩, ?_, ?_, hmax⟩ <;> simp [hst]

theorem Parser.inv_checksum (hst : p.st = .awaitingChecksum) (hlen : p.buf.length = p.expLen.toNat)
    (hpos : 1 ≤ p.expLen.toNat) (hacc : p.acc = sum8 p.buf) (hchk : p.rxChk = 0#8) : p.Inv := by
  have hmax : p.buf.length ≤ Config.bufCap := hlen.le.trans p.expLen_toNat_le
  refine ⟨?_, ?_, ?_, fun _ => ⟨hlen, hpos, hacc, hchk⟩, ?_, hmax⟩ <;> simp [hst]

theorem Parser.inv_end (hst : p.st = .awaitingEnd) (hlen : p.buf.length = p.expLen.toNat)
    (hpos : 1 ≤ p.expLen.toNat) (hacc : p.acc = sum8 p.buf) : p.Inv := by
  have hmax : p.buf.length ≤ Config.bufCap := hlen.le.trans p.expLen_toNat_le
  refine ⟨?_, ?_, ?_, ?_, fun _ => ⟨hlen, hpos, hacc⟩, hmax⟩ <;> simp [hst]

/-- Every transition of the parser leads from a row of the table to a row of the table. -/
theorem Parser.Inv.accept (hinv : p.Inv) (b : Byte) : (p.accept b).1.Inv := by
  obtain ⟨_, hlength, hpayload, hchecksum, _, _⟩ := hinv
  rcases p.accept_cases b with ⟨_, _, h⟩ | ⟨_, _, h⟩ | ⟨hst, hb, h⟩ | ⟨_, _, h⟩ | ⟨hst, hmore, h⟩ | ⟨hst, hlast, h⟩ |
    ⟨hst, h⟩ | ⟨_, _, _, h⟩ | ⟨_, _, h⟩ <;> rw [h]
  · exact Parser.inv_cleared (.inr rfl)
  · exact Parser.inv_reset
  · obtain ⟨hbuf, _, hacc, hchk⟩ := hlength hst
    have hpos : 0 < b.toNat := Nat.pos_of_ne_zero fun h0 => hb (BitVec.eq_of_toNat_eq h0)
    exact Parser.inv_payload rfl (by simpa [hbuf] using hpos) (by simp [hbuf, hacc]) hchk
  · exact Parser.inv_reset
  · obtain ⟨hlen, _, hacc, hchk⟩ := hpayload hst
    have hlen' : (p.buf ++ [b]).length < p.expLen.toNat := by
      rw [List.length_append, List.length_singleton]
      omega
    exact Parser.inv_payload hst hlen' (by simp [sum8_concat, hacc]) hchk
  · obtain ⟨_, hpos, hacc, hchk⟩ := hpayload hst
    exact Parser.inv_checksum rfl (by simpa using hlast) hpos (by simp [sum8_concat, hacc]) hchk
  · obtain ⟨hlen, hpos, hacc, _⟩ := hchecksum hst
    exact Parser.inv_end rfl hlen hpos hacc
  · exact Parser.inv_reset
  · exact Parser.inv_reset

/-- The invariant through any sequence of bytes. -/
theorem Parser.Inv.feed (hinv : p.Inv) (bs : List Byte) : (p.feed bs).1.Inv := by
  induction bs generalizing p with
  | nil => exact hinv
  | cons b bs ih => exact ih (hinv.accept b)

/-- At the END position the declared length is one of a payload, 1..255 (R10). -/
theorem Parser.Inv.buf_length_of_awaitingEnd (hinv : p.Inv) (hst : p.st = .awaitingEnd) :
    1 ≤ p.buf.length ∧ p.buf.length ≤ 255 := by
  obtain ⟨_, _, _, _, hend, hmax⟩ := hinv
  obtain ⟨hlen, hpos, _⟩ := hend hst
  exact ⟨hlen ▸ hpos, hmax⟩

/-- Only the transition out of `AwaitingEnd` emits an outcome other than `Waiting` (R85). -/
theorem Parser.accept_waiting_iff (p : Parser) (b : Byte) : (p.accept b).2 = .waiting ↔ p.st ≠ .awaitingEnd := by
  rcases p.accept_cases b with ⟨hst, _, h⟩ | ⟨hst, _, h⟩ | ⟨hst, _, h⟩ | ⟨hst, _, h⟩ | ⟨hst, _, h⟩ | ⟨hst, _, h⟩ |
    ⟨hst, h⟩ | ⟨hst, _, _, h⟩ | ⟨hst, _, h⟩ <;> simp [hst, h]

/-- A `Complete` comes from row 7 alone: the whole buffer, behind an END byte and a checksum that agrees (R93). -/
theorem Parser.accept_eq_complete {b : Byte} {m : List Byte} (h : (p.accept b).2 = .complete m) :
    p.st = .awaitingEnd ∧ b = 0x03#8 ∧ p.rxChk = p.acc ∧ m = p.buf := by
  have hst : p.st = .awaitingEnd := by
    by_contra hne
    rw [(p.accept_waiting_iff b).mpr hne] at h
    cases h
  by_cases hok : b = 0x03#8 ∧ p.rxChk = p.acc
  · obtain ⟨hb, hchk⟩ := hok
    rw [Parser.accept_complete hst hb hchk] at h
    cases h
    exact ⟨hst, hb, hchk, rfl⟩
  · rw [Parser.accept_rejected hst (not_and_or.mp hok)] at h
    cases h

end Invariant

theorem Response.wf_complete_iff {m : List Byte} :
    (Response.accept (.complete m)).wf = true ↔ 1 ≤ m.length ∧ m.length ≤ 255 := by
  simp [Response.wf]

theorem Response.wf_frame_iff {f : List Byte} :
    (Response.encode (.ok f)).wf = true ↔ 5 ≤ f.length ∧ f.length ≤ 259 := by
  simp [Response.wf, Config.minLen, Config.maxLen, Config.frameOverhead]

/-- The payload of a `Complete` has 1..255 bytes (R10, R62). -/
theorem accept_response_wf {p : Parser} (hinv : p.Inv) (b : Byte) : (Response.accept (p.accept b).2).wf = true := by
  cases ho : (p.accept b).2 with
  | waiting => rfl
  | rejected r => rfl
  | complete m =>
    obtain ⟨hst, _, _, rfl⟩ := Parser.accept_eq_complete ho
    exact Response.wf_complete_iff.mpr (hinv.buf_length_of_awaitingEnd hst)

/-- The frame of a successful `ENCODE` has 5..259 bytes (R52, R62). -/
theorem encode_response_wf (q : Ports) : (Response.encode (encodePayload q)).wf = true := by
  rcases encodePayload_cases q with ⟨_, h⟩ | ⟨_, _, _, h⟩ | ⟨h1, h2, _, h⟩ <;> rw [h]
  · rfl
  · rfl
  · rw [Response.wf_frame_iff, frameOf_length, q.encOperand_length]
    omega

section Operation

variable {p : Parser}

theorem Parser.Inv.parserAfter (hinv : p.Inv) (i : Instr) : (parserAfter i p).Inv := by
  cases i with
  | accept b => exact hinv.accept b
  | encode => exact hinv
  | chksum => exact hinv
  | reset => exact Parser.inv_reset

theorem Parser.Inv.responseOf_wf (hinv : p.Inv) (i : Instr) (q : Ports) : (responseOf i p q).wf = true := by
  cases i with
  | accept b => exact accept_response_wf hinv b
  | encode => exact encode_response_wf q
  | chksum => rfl
  | reset => rfl

end Operation

/-- Settles O45: the parser moves by one of its transitions or by a reset, what is taken from the queue was well formed there,
and what is returned has the shapes of R62. -/
theorem stepKeepsTheInvariant : Obligations.StepKeepsTheInvariant := by
  intro s t ⟨hparser, hports, hpending, _⟩ hstep
  have hnone : ∀ r ∈ (none : Option Response), r.wf = true := by simp
  rcases step_cases hstep with ⟨hp, rfl⟩ | ⟨rest, hp, rfl⟩ | ⟨rest, hp, rfl⟩ | ⟨r, rest, i, hp, hd, _⟩
  · exact ⟨hparser, hports, by simp, hnone⟩
  · rw [hp, List.forall_mem_cons] at hpending
    exact ⟨hparser, hports, hpending.2, hnone⟩
  · rw [hp, List.forall_mem_cons] at hpending
    exact ⟨Parser.inv_reset, hports, hpending.2, hnone⟩
  · rw [hp, List.forall_mem_cons] at hpending
    obtain ⟨hreq, hrest⟩ := hpending
    rw [step_of_decode hp hd] at hstep
    cases hstep
    refine ⟨hparser.parserAfter i, hreq, hrest, ?result⟩
    case result => simpa using hparser.responseOf_wf i r.ports

/-- Settles O44: the reset parser meets its row, and nothing is issued or returned yet. -/
theorem resetMeetsTheInvariant : Obligations.ResetMeetsTheInvariant :=
  ⟨Parser.inv_reset, rfl, by simp [State.reset], by simp [State.reset]⟩

/-- Settles O36: row 7 is the only one that emits `Complete`, and the invariant says what the buffer is there. -/
theorem completePayloadIsChecked : Obligations.CompletePayloadIsChecked := by
  intro s t b m hinv hexec hres
  rw [exec_accept] at hexec
  cases hexec
  have ho : (s.parser.accept b).2 = .complete m := by simpa using hres
  obtain ⟨hst, hb, hchk, rfl⟩ := Parser.accept_eq_complete ho
  obtain ⟨hlen, hacc⟩ := hinv.buf_of_awaitingEnd hst
  obtain ⟨hmin, hmax⟩ := hinv.buf_length_of_awaitingEnd hst
  exact ⟨hst, hb, rfl, hlen, hmin, hmax, hchk.trans hacc⟩

end Sys2Proof.Machine

/-! ### Reserved words and tabled words (R57, R60) -/

namespace Sys2Proof.Machine

/-- A run whose first step is refused is refused, however many steps it is given (log 5). -/
theorem run_of_step_refused {s : State} {x : Refusal} (h : step s = .refused x) (k : Nat) :
    Host.Core.run core (k + 1) s = .refused x := by
  have hcore : core.step s = .refused x := h
  simp only [Host.Core.run, hcore]

/-- The numbers that the decoder rejects, of those that fit a command word (R59, R60). -/
theorem decodeNat_isNone_iff {n : Nat} (h : n < 1024) :
    (decodeNat n).toOption.isNone = true ↔ 256 < n ∧ n ≠ 512 ∧ n ≠ 768 := by
  obtain ⟨w, rfl⟩ : ∃ w : CmdWord, w.toNat = n := ⟨BitVec.ofNat 10 n, Nat.mod_eq_of_lt h⟩
  rw [decodeNat_toNat]
  rcases word_cases w with hlt | rfl | rfl | rfl | ⟨h1, h2, h3⟩
  · have hle : ¬ 256 < w.toNat := by omega
    simp [decode_of_toNat_lt hlt, Except.toOption, hle]
  · decide
  · decide
  · decide
  · simp [decode_of_reserved h1 h2 h3, Except.toOption, h1, h2, h3]

/-- The three ranges of reserved words hold 255 numbers each (R60). -/
theorem count_reserved : Nat.count (fun n => 256 < n ∧ n ≠ 512 ∧ n ≠ 768) 1024 = 765 := by
  have hsplit : 1024 = 257 + (255 + (1 + (255 + (1 + 255)))) := rfl
  rw [hsplit]
  simp only [Nat.count_add]
  rw [Nat.count_of_forall_not (n := 257) (by omega), Nat.count_of_forall_not (n := 1) (by omega),
    Nat.count_of_forall_not (n := 1) (by omega), Nat.count_of_forall (n := 255) (by omega),
    Nat.count_of_forall (n := 255) (by omega), Nat.count_of_forall (n := 255) (by omega)]

/-- Settles O3: the ranges are those of `decode_of_reserved`, so the step is refused and the run with it; the count goes range
by range. -/
theorem reservedWordIsRefusedForTheRestOfTheRun : Obligations.ReservedWordIsRefusedForTheRestOfTheRun := by
  refine ⟨fun s r rest hp hrange k => ?refused, ?count⟩
  case refused =>
    have hd := decode_of_reserved (w := r.cmd) (by omega) (by omega) (by omega)
    exact run_of_step_refused (step_of_reserved hp hd) k
  case count =>
    rw [← List.countP_eq_length_filter, ← count_reserved, Nat.count]
    refine List.countP_congr fun n hn => ?_
    simpa using decodeNat_isNone_iff (List.mem_range.mp hn)

/-- The table numbers words as the decoder does: no operation's number reaches bit 16. -/
theorem toNat_mod_tableWord (w : CmdWord) : w.toNat % 2 ^ 16 = w.toNat :=
  Nat.mod_eq_of_lt (Nat.lt_trans w.isLt (by decide))

theorem decodeTableWord_encode (i : Instr) : decodeTableWord 16 (Sys2Proof.encode i).toNat = some i := by
  rw [decodeTableWord, toNat_mod_tableWord, decodeNat_toNat, decode_encode]
  rfl

/-- The word put first is the word itself: its number keeps all ten bits (log 9). -/
theorem State.withFetchWord_toNat (s : State) (w : CmdWord) : s.withFetchWord 16 w.toNat = s.issueFirst w := by
  rw [State.withFetchWord, toNat_mod_tableWord, BitVec.ofNat_toNat, BitVec.setWidth_eq]

/-- Settles O7: the number of an encoding is read back whole, by the table's decoder and by the command port. -/
theorem tableWordRunsNext : Obligations.TableWordRunsNext := by
  refine fun s i => ⟨decodeTableWord_encode i, ?runs⟩
  case runs =>
    have hpending := s.issueFirst_pending (Sys2Proof.encode i)
    rw [State.withFetchWord_toNat, step_of_decode hpending (decode_encode i), exec_eq]
    rfl

/-! ### One step: the event it takes, and what it can change (R48, R59, R117, R120) -/

/-- Settles O6: the transaction of the request, as `step_of_decode` gives it. -/
theorem stepRunsTheIssuedOperation : Obligations.StepRunsTheIssuedOperation := by
  intro s r rest i hp hd
  rw [step_of_decode hp hd, exec_eq]

/-- Settles O8: each kind of event is taken off the queue, and an operation leaves the rest of it alone. -/
theorem stepTakesExactlyOneEvent : Obligations.StepTakesExactlyOneEvent := by
  intro s t h
  rcases step_cases h with ⟨hp, rfl⟩ | ⟨rest, hp, rfl⟩ | ⟨rest, hp, rfl⟩ | ⟨r, rest, i, hp, hd, _⟩
  · simp [hp]
  · simp [hp]
  · simp [hp]
  · rw [step_of_decode hp hd] at h
    cases h
    simp [hp]

/-- Settles O12: the step of a power-on event. -/
theorem powerOnEventResetsTheParser : Obligations.PowerOnEventResetsTheParser :=
  fun s rest hp => step_powerOn s rest hp

/-- Settles O13: `exec` answers with a result by `exec_eq`, and a refusal of `step` is that of a word that does not decode. -/
theorem everyOperationRunsInEveryState : Obligations.EveryOperationRunsInEveryState := by
  refine ⟨fun i s => ⟨_, exec_eq i s, rfl⟩, fun s f hfault => ?noFault, fun s x => ⟨fun hrefused => ?refused, ?reserved⟩⟩
  case noFault =>
    rcases step_next_or_refused s with ⟨t, ht⟩ | ⟨_, _, _, _, _, ht⟩
    · rw [ht] at hfault
      cases hfault
    · rw [ht] at hfault
      cases hfault
  case refused =>
    rcases step_next_or_refused s with ⟨t, ht⟩ | ⟨r, rest, e, hp, hd, ht⟩
    · rw [ht] at hrefused
      cases hrefused
    · rw [ht] at hrefused
      cases hrefused
      exact ⟨r, rest, hp, decode_error_iff.mp ⟨e, hd⟩, rfl⟩
  case reserved =>
    rintro ⟨r, rest, hp, hnone, rfl⟩
    obtain ⟨e, hd⟩ := decode_error_iff.mpr hnone
    exact step_of_reserved hp hd

/-- Settles O14: of the operations only `ACCEPT` and `RESET` write a parser, and their words are those of the map. -/
theorem onlyAcceptAndResetsMoveTheParser : Obligations.OnlyAcceptAndResetsMoveTheParser := by
  intro s t h hmoved
  rcases step_cases h with ⟨_, rfl⟩ | ⟨_, _, rfl⟩ | ⟨rest, hp, _⟩ | ⟨r, rest, i, hp, hd, _⟩
  · exact absurd rfl hmoved
  · exact absurd rfl hmoved
  · exact .inl ⟨rest, hp⟩
  · refine .inr ⟨r, rest, hp, ?_⟩
    rw [step_of_decode hp hd] at h
    cases h
    cases i with
    | accept b => exact .inr (encode_eq_of_decode hd ▸ encode_accept_toNat b ▸ b.isLt)
    | encode => exact absurd rfl hmoved
    | chksum => exact absurd rfl hmoved
    | reset => exact .inl (encode_eq_of_decode hd).symm

/-- Settles O15: every event overwrites the result before an operation runs, and a request overwrites the ports. -/
theorem resultsAndEarlierOperandsAreNeverRead : Obligations.ResultsAndEarlierOperandsAreNeverRead := by
  refine ⟨fun i s x => ?exec, fun s x => ?result, fun s q r rest hp => ?ports⟩
  case exec => rw [exec_eq, exec_eq]
  case result =>
    obtain ⟨p, q, es, y⟩ := s
    rcases es with _ | ⟨_ | _ | _, es⟩ <;> rfl
  case ports =>
    obtain ⟨p, q', es, y⟩ := s
    obtain rfl : es = .issue r :: rest := hp
    rfl

/-- Settles O16: `exec` writes the parser and the result, and `ENCODE` and `CHKSUM` write back the parser they find. -/
theorem operationsLeaveTheRestUnchanged : Obligations.OperationsLeaveTheRestUnchanged := by
  intro i s t h
  rw [exec_eq] at h
  cases h
  refine ⟨rfl, rfl, fun hi => ?parser⟩
  case parser =>
    rw [parserAfter_of_stateless hi]
    exact ⟨rfl, rfl, rfl, rfl, rfl⟩

/-- Settles O26: their response is a function of the ports, and they write nothing that it reads. -/
theorem encodeAndChksumDependOnTheirPortsAlone : Obligations.EncodeAndChksumDependOnTheirPortsAlone := by
  intro i s s' hi hports
  have hexec (u : State) (hu : u.ports = s.ports) :
      exec i u = .next { u with result := some (responseOf i s.parser s.ports) } := by
    rw [exec_eq, parserAfter_of_stateless hi, responseOf_of_stateless hi u.parser s.parser, hu]
  exact ⟨_, hexec s rfl, hexec s' hports.symm, hexec _ rfl⟩

/-- A system's step is its block's, set in the block's own place (R113). -/
theorem System.stepAt_eq_next {y z : System} {k : Fin y.blocks.length} (h : y.stepAt k = .next z) :
    ∃ t, step (y.blocks.get k) = .next t ∧ z = ⟨y.blocks.set k t⟩ := by
  unfold System.stepAt at h
  split at h
  next t ht =>
    cases h
    exact ⟨t, ht, rfl⟩
  · cases h
  · cases h

/-- Settles O51: `List.set` at the block's place leaves the length and every other place. -/
theorem blocksShareNothing : Obligations.BlocksShareNothing := by
  intro y z k h
  obtain ⟨t, ht, rfl⟩ := System.stepAt_eq_next h
  exact ⟨List.length_set, fun j hj => List.getElem?_set_ne hj.symm, t, ht, List.getElem?_set_self k.isLt⟩

end Sys2Proof.Machine

/-! ### Runs: how they compose, and what they do not see (R18, R48, R120) -/

namespace Sys2Proof.Machine

theorem trace_add {j k : Nat} {s t u : State} {rs qs : List Response} (hj : trace j s = .next (t, rs))
    (hk : trace k t = .next (u, qs)) : trace (j + k) s = .next (u, rs ++ qs) := by
  induction j generalizing s rs with
  | zero =>
    cases hj
    rwa [Nat.zero_add]
  | succ j ih =>
    obtain ⟨v, rs', hstep, hrun, rfl⟩ := trace_succ_inv hj
    rw [Nat.add_right_comm, List.append_assoc]
    exact trace_succ hstep (ih hrun)

/-- A step takes its event and looks at no later one. -/
theorem step_withPending {s t : State} {e : HostEvent} {rest : List HostEvent} (rest' : List HostEvent)
    (hp : s.pending = e :: rest) (h : step s = .next t) :
    t.pending = rest ∧ step { s with pending := e :: rest' } = .next { t with pending := rest' } := by
  cases e with
  | idle =>
    rw [step_idle s rest hp] at h
    cases h
    exact ⟨rfl, rfl⟩
  | powerOn =>
    rw [step_powerOn s rest hp] at h
    cases h
    exact ⟨rfl, rfl⟩
  | issue r =>
    cases hd : decode r.cmd with
    | ok i =>
      rw [step_of_decode hp hd] at h
      cases h
      exact ⟨rfl, step_of_decode rfl hd⟩
    | error e =>
      rw [step_of_reserved hp hd] at h
      cases h

/-- A run over its events takes them all and looks at none that comes after. -/
theorem trace_withPending {s t : State} {es rest : List HostEvent} {rs : List Response} (rest' : List HostEvent)
    (hp : s.pending = es ++ rest) (h : trace es.length s = .next (t, rs)) :
    t.pending = rest ∧
    trace es.length { s with pending := es ++ rest' } = .next ({ t with pending := rest' }, rs) := by
  induction es generalizing s rs with
  | nil =>
    cases h
    exact ⟨hp, rfl⟩
  | cons e es ih =>
    obtain ⟨u, qs, hstep, hrun, rfl⟩ := trace_succ_inv h
    obtain ⟨hpending, hstep'⟩ := step_withPending (es ++ rest') hp hstep
    obtain ⟨ht, hrun'⟩ := ih hpending hrun
    exact ⟨ht, trace_succ (t := { u with pending := es ++ rest' }) hstep' hrun'⟩

/-- Settles O9: both parts by induction on the run, step by step. -/
theorem runsComposeAndIgnoreLaterEvents : Obligations.RunsComposeAndIgnoreLaterEvents :=
  ⟨fun _ _ _ _ _ _ _ hj hk => trace_add hj hk, fun s _ es rest rest' _ h =>
    trace_withPending (s := { s with pending := es ++ rest }) rest' rfl h⟩

/-- A run of steps with no operation, each of which takes the event in front if there is one. -/
theorem trace_idle {s : State} {k : Nat} {rest : List HostEvent} (hp : s.pending = List.replicate k .idle ++ rest) :
    ∃ t, trace k s = .next (t, []) ∧ t.parser = s.parser ∧ t.ports = s.ports ∧ t.pending = rest := by
  induction k generalizing s with
  | zero => exact ⟨s, rfl, rfl, rfl, hp⟩
  | succ k ih =>
    obtain ⟨t, hrun, hparser, hports, hpending⟩ := ih (s.idleStep_pending (List.replicate k .idle ++ rest))
    exact ⟨t, trace_succ (step_idle s _ hp) hrun, hparser, hports, hpending⟩

theorem trace_nothing_pending {s : State} (k : Nat) (hp : s.pending = []) :
    ∃ t, trace k s = .next (t, []) ∧ t.parser = s.parser ∧ t.ports = s.ports ∧ t.pending = [] := by
  induction k generalizing s with
  | zero => exact ⟨s, rfl, rfl, rfl, hp⟩
  | succ k ih =>
    obtain ⟨t, hrun, hparser, hports, hpending⟩ := ih (s.idleStep_pending [])
    exact ⟨t, trace_succ (step_nil s hp) hrun, hparser, hports, hpending⟩

/-- Settles O10: an idle step writes no block state, and neither does a step with nothing left to do. -/
theorem idleTimeChangesNoBlockState : Obligations.IdleTimeChangesNoBlockState :=
  fun _ k _ => ⟨trace_idle, trace_nothing_pending k⟩

/-- A run of issued `ACCEPT`s feeds their bytes to the parser, whatever the ports carry (R58, R68). -/
theorem trace_acceptsBytes {s : State} {reqs : List Request} {bs : List Byte} {rest : List HostEvent}
    (hreqs : AcceptsBytes reqs bs) (hp : s.pending = reqs.map .issue ++ rest) :
    ∃ t, trace bs.length s = .next (t, (s.parser.feed bs).2.map .accept) ∧
      t.parser = (s.parser.feed bs).1 ∧ t.pending = rest := by
  induction bs generalizing s reqs with
  | nil =>
    obtain rfl : reqs = [] := List.map_eq_nil_iff.mp hreqs
    exact ⟨s, rfl, rfl, hp⟩
  | cons b bs ih =>
    obtain ⟨r, reqs, rfl, hcmd, hreqs⟩ := List.map_eq_cons_iff.mp hreqs
    have hd : decode r.cmd = .ok (.accept b) := hcmd ▸ decode_encode (.accept b)
    have hstep := step_of_decode hp hd
    obtain ⟨t, hrun, hparser, hpending⟩ := ih (s := ⟨_, _, _, _⟩) hreqs rfl
    exact ⟨t, trace_succ hstep hrun, hparser, hpending⟩

/-- Settles O37: one step an `ACCEPT`, by induction on the bytes. -/
theorem acceptRunsFeedTheParser : Obligations.AcceptRunsFeedTheParser :=
  fun _ _ _ _ => trace_acceptsBytes

/-! ### Operations of different units (R20, R49) -/

/-- Two issued operations, run in order. -/
theorem trace_two {s : State} {a b : Request} {i j : Instr} {rest : List HostEvent}
    (hp : s.pending = .issue a :: .issue b :: rest) (ha : decode a.cmd = .ok i) (hb : decode b.cmd = .ok j) :
    ∃ t, trace 2 s =
        .next (t, [responseOf i s.parser a.ports, responseOf j (parserAfter i s.parser) b.ports]) ∧
      t.parser = parserAfter j (parserAfter i s.parser) ∧ t.pending = rest :=
  ⟨_, trace_succ (step_of_decode hp ha) (trace_succ (step_of_decode rfl hb) (trace_zero _)), rfl, rfl⟩

theorem stateless_of_decode {w : CmdWord} (h : decode w = .ok .encode ∨ decode w = .ok .chksum) :
    ∃ i, decode w = .ok i ∧ (i = .encode ∨ i = .chksum) := by
  rcases h with h | h
  · exact ⟨_, h, .inl rfl⟩
  · exact ⟨_, h, .inr rfl⟩

/-- Settles O46: the parser passes through `ENCODE` and `CHKSUM` unchanged and they do not read it, so neither order changes
what the two units see. -/
theorem neighboursOfTwoUnitsSwap : Obligations.NeighboursOfTwoUnitsSwap := by
  intro s a b rest ha hb
  obtain ⟨i, hi, hstateless⟩ := stateless_of_decode ha
  obtain ⟨j, hj⟩ : ∃ j, decode b.cmd = .ok j := hb.elim (fun h => ⟨_, h⟩) fun ⟨_, h⟩ => ⟨_, h⟩
  obtain ⟨t, ht, htparser, htpending⟩ := trace_two (s := { s with pending := _ }) (rest := rest) rfl hi hj
  obtain ⟨u, hu, huparser, hupending⟩ := trace_two (s := { s with pending := _ }) (rest := rest) rfl hj hi
  rw [parserAfter_of_stateless hstateless] at ht htparser huparser
  rw [responseOf_of_stateless hstateless _ s.parser] at hu
  exact ⟨t, u, _, _, ht, hu, htparser.trans huparser.symm, htpending, hupending⟩

/-- Whether an issued operation concerns the parser is whether it is of the parser's unit. -/
theorem concernsParser_issue_iff {r : Request} {i : Instr} (hd : decode r.cmd = .ok i) :
    (HostEvent.issue r).concernsParser = true ↔ i = .reset ∨ ∃ b, i = .accept b := by
  cases i <;> simp [HostEvent.concernsParser, hd]

theorem decode_of_served {r : Request} (h : (HostEvent.issue r).served = true) : ∃ i, decode r.cmd = .ok i := by
  cases hd : decode r.cmd with
  | ok i => exact ⟨i, rfl⟩
  | error e => simp [HostEvent.served, hd] at h

theorem responseOf_ofParser (i : Instr) (p : Parser) (q : Ports) :
    (responseOf i p q).ofParser = true ↔ i = .reset ∨ ∃ b, i = .accept b := by
  cases i <;> simp [responseOf, Response.ofParser]

/-- An idle event, an `ENCODE` or a `CHKSUM`: the parser stays, and what is returned is not its unit's. -/
theorem step_of_not_concernsParser {s : State} {e : HostEvent} {es : List HostEvent} (hserved : e.served = true)
    (he : e.concernsParser = false) (hp : s.pending = e :: es) :
    ∃ t, step s = .next t ∧ t.parser = s.parser ∧ t.pending = es ∧ t.result.toList.filter Response.ofParser = [] := by
  cases e with
  | idle => exact ⟨_, step_idle s es hp, rfl, rfl, rfl⟩
  | powerOn => cases he
  | issue r =>
    obtain ⟨i, hd⟩ := decode_of_served hserved
    have hother : ¬ (i = .reset ∨ ∃ b, i = .accept b) := by
      rw [← concernsParser_issue_iff hd, he]
      decide
    have hstateless : i = .encode ∨ i = .chksum := by
      cases i <;> simp at hother ⊢
    refine ⟨_, step_of_decode hp hd, parserAfter_of_stateless hstateless _, rfl, ?result⟩
    case result =>
      have hresponse := mt (responseOf_ofParser i s.parser r.ports).mp hother
      simp [hresponse]

/-- An `ACCEPT`, a `RESET` or a power-on reset reads the parser alone and returns a result of the parser's unit, or none. -/
theorem step_of_concernsParser {s s' : State} {e : HostEvent} {es es' : List HostEvent} (hserved : e.served = true)
    (he : e.concernsParser = true) (hparser : s.parser = s'.parser) (hp : s.pending = e :: es)
    (hp' : s'.pending = e :: es') :
    ∃ t t', step s = .next t ∧ step s' = .next t' ∧ t.parser = t'.parser ∧ t.pending = es ∧ t'.pending = es' ∧
      t.result.toList.filter Response.ofParser = t'.result.toList := by
  cases e with
  | idle => cases he
  | powerOn => exact ⟨_, _, step_powerOn s es hp, step_powerOn s' es' hp', rfl, rfl, rfl, rfl⟩
  | issue r =>
    obtain ⟨i, hd⟩ := decode_of_served hserved
    have hunit := (concernsParser_issue_iff hd).mp he
    refine ⟨_, _, step_of_decode hp hd, step_of_decode hp' hd, congrArg (parserAfter i) hparser, rfl, rfl, ?result⟩
    case result =>
      have hresponse := (responseOf_ofParser i s'.parser r.ports).mpr hunit
      simp [hparser, hresponse]

/-- Two runs from the same parser, one over events and one over those of them that concern it, stay in step at the parser. -/
theorem trace_filter_concernsParser {s s' : State} {es rest : List HostEvent} (hserved : ∀ e ∈ es, e.served = true)
    (hparser : s.parser = s'.parser) (hp : s.pending = es ++ rest)
    (hp' : s'.pending = es.filter HostEvent.concernsParser ++ rest) :
    ∃ t u rs qs, trace es.length s = .next (t, rs) ∧
      trace (es.filter HostEvent.concernsParser).length s' = .next (u, qs) ∧
      t.parser = u.parser ∧ t.pending = u.pending ∧ rs.filter Response.ofParser = qs := by
  induction es generalizing s s' with
  | nil => exact ⟨s, s', [], [], rfl, rfl, hparser, hp.trans hp'.symm, rfl⟩
  | cons e es ih =>
    obtain ⟨he, hserved⟩ := List.forall_mem_cons.mp hserved
    cases hc : e.concernsParser with
    | false =>
      rw [List.filter_cons_of_neg (by simp [hc])] at hp' ⊢
      obtain ⟨v, hstep, hv, hvp, hres⟩ := step_of_not_concernsParser he hc hp
      obtain ⟨t, u, rs, qs, hrun, hrun', htu, hpending, hqs⟩ := ih hserved (hv.trans hparser) hvp hp'
      refine ⟨t, u, _, qs, trace_succ hstep hrun, hrun', htu, hpending, ?_⟩
      rw [List.filter_append, hres, hqs, List.nil_append]
    | true =>
      rw [List.filter_cons_of_pos hc] at hp' ⊢
      obtain ⟨v, v', hstep, hstep', hv, hvp, hvp', hres⟩ := step_of_concernsParser he hc hparser hp hp'
      obtain ⟨t, u, rs, qs, hrun, hrun', htu, hpending, hqs⟩ := ih hserved hv hvp hvp'
      refine ⟨t, u, _, _, trace_succ hstep hrun, trace_succ hstep' hrun', htu, hpending, ?_⟩
      rw [List.filter_append, hres, hqs]

/-- Settles O47: both runs start at one parser, so `trace_filter_concernsParser` keeps them in step. -/
theorem otherUnitsAreInvisibleToTheParser : Obligations.OtherUnitsAreInvisibleToTheParser :=
  fun _ _ _ hserved => trace_filter_concernsParser hserved rfl rfl rfl

end Sys2Proof.Machine

/-! ### The laws of `sum8`, and frames as they give back their payload (R70, R83) -/

namespace Sys2Proof.Machine

theorem sum8_append (p q : List Byte) : sum8 (p ++ q) = sum8 p + sum8 q := by
  rw [sum8, List.foldl_append, foldl_add_eq q]
  rfl

theorem sum8_singleton (b : Byte) : sum8 [b] = b := by
  rw [sum8_cons, sum8_nil, BitVec.add_zero]

/-- The order of the bytes does not matter: that of the sum of naturals does not. -/
theorem sum8_perm {p q : List Byte} (h : p.Perm q) : sum8 p = sum8 q := by
  apply BitVec.eq_of_toNat_eq
  rw [sum8_toNat, sum8_toNat, (h.map BitVec.toNat).sum_eq]

theorem sum8_replicate_toNat (n : Nat) (b : Byte) : (sum8 (List.replicate n b)).toNat = n * b.toNat % 256 := by
  rw [sum8_toNat, List.map_replicate, List.sum_replicate, smul_eq_mul]

/-- Settles O18: the laws of the fold, and 255 · 255 = 254 · 256 + 1 for the last. -/
theorem lawsOfSumEight : Obligations.LawsOfSumEight := by
  refine ⟨sum8_nil, sum8_singleton, sum8_append, fun _ _ => sum8_perm, fun p => ?zero, ?ones⟩
  case zero => rw [sum8_concat, BitVec.add_zero]
  case ones =>
    apply BitVec.eq_of_toNat_eq
    rw [sum8_replicate_toNat]
    rfl

/-- A frame holds its payload from index 2 on. -/
theorem frameOf_take_drop (p : List Byte) : ((frameOf p).drop 2).take p.length = p :=
  List.take_left

theorem frameOf_injective : Function.Injective frameOf := by
  intro p q h
  have hlen : p.length = q.length := by simpa using congrArg List.length h
  rw [← frameOf_take_drop p, ← frameOf_take_drop q, h, hlen]

/-- A frame that the encoder returns is that of its operand, of 1..255 bytes. -/
theorem encodePayload_eq_ok {q : Ports} {f : List Byte} (h : encodePayload q = .ok f) :
    f = frameOf q.encOperand ∧ 1 ≤ q.encLen.toNat ∧ q.encLen.toNat ≤ 255 := by
  rcases encodePayload_cases q with ⟨_, hq⟩ | ⟨_, _, _, hq⟩ | ⟨h1, h2, _, hq⟩ <;> rw [hq] at h <;> cases h
  exact ⟨rfl, h1, h2⟩

/-- What an `ENCODE` returned is what its unit answers on its ports. -/
theorem encodePayload_of_exec {s t : State} {r : EncResult} (h : exec .encode s = .next t)
    (hr : t.result = some (.encode r)) : encodePayload s.ports = r := by
  rw [exec_encode] at h
  cases h
  simpa using hr

theorem ofNat_length_toNat {m : List Byte} (h : m.length ≤ 255) : (BitVec.ofNat 8 m.length).toNat = m.length :=
  Nat.mod_eq_of_lt (Nat.lt_succ_of_le h)

/-- Settles O25: the payload stands at a fixed place of its frame, for the number of bytes that LEN says. -/
theorem framesGiveBackTheirPayload : Obligations.FramesGiveBackTheirPayload := by
  intro s t f h hres
  obtain ⟨rfl, _, hmax⟩ := encodePayload_eq_ok (encodePayload_of_exec h hres)
  have hlen := ofNat_length_toNat (s.ports.encOperand_length ▸ hmax)
  refine ⟨⟨_, frameOf_len _, ?payload, hlen⟩, fun s' t' h' hres' => ?unique⟩
  case payload => rw [hlen, frameOf_take_drop]
  case unique =>
    obtain ⟨hframe, _⟩ := encodePayload_eq_ok (encodePayload_of_exec h' (hres'.trans hres))
    exact frameOf_injective hframe.symm

end Sys2Proof.Machine

/-! ### One transition of the parser: what it writes, and where it goes (R23 to R26, R53, R95) -/

namespace Sys2Proof.Machine

/-- Settles O33: `ACCEPT` returns the outcome of its transition. -/
theorem acceptEmitsOneOutcome : Obligations.AcceptEmitsOneOutcome :=
  fun s b => ⟨_, _, exec_accept b s, rfl, s.parser.accept_waiting_iff b⟩

/-- Settles O34: row by row; those that touch `AwaitingStart` clear every register, and each other one writes those of its own
state. -/
theorem acceptWritesEachRegisterOnlyInItsState : Obligations.AcceptWritesEachRegisterOnlyInItsState := by
  intro s t b h
  rw [exec_accept] at h
  cases h
  rcases s.parser.accept_cases b with ⟨hst, _, h⟩ | ⟨hst, _, h⟩ | ⟨hst, _, h⟩ | ⟨hst, _, h⟩ | ⟨hst, _, h⟩ |
    ⟨hst, _, h⟩ | ⟨hst, h⟩ | ⟨hst, _, _, h⟩ | ⟨hst, _, h⟩ <;> simp [h, hst]

/-- Past `AwaitingStart` the parser only moves forward until it is back there. -/
theorem Parser.accept_forward (p : Parser) (b : Byte) :
    (p.accept b).1.st = .awaitingStart ∨ p.st.code.toNat ≤ (p.accept b).1.st.code.toNat := by
  rcases p.accept_cases b with ⟨hst, _, h⟩ | ⟨hst, _, h⟩ | ⟨hst, _, h⟩ | ⟨hst, _, h⟩ | ⟨hst, _, h⟩ | ⟨hst, _, h⟩ |
    ⟨hst, h⟩ | ⟨hst, _, _, h⟩ | ⟨hst, _, h⟩ <;> simp [h, hst, ParserState.code]

/-- Settles O35: the rows of PAYLOAD and CHK do not look at the byte, that of LEN only at whether it is zero. -/
theorem bytesInsideAFrameArePositional : Obligations.BytesInsideAFrameArePositional := by
  refine fun p b => ⟨p.accept_forward b, fun c hst => ?positional, fun c hst hb hc => ?length⟩
  case positional =>
    rcases hst with hst | hst
    · by_cases hlast : p.buf.length + 1 = p.expLen.toNat
      · simp [Parser.accept_lastPayload hst hlast]
      · simp [Parser.accept_payload hst hlast]
    · simp [Parser.accept_checksum hst]
  case length => simp [Parser.accept_length hst hb, Parser.accept_length hst hc]

end Sys2Proof.Machine

/-! ### Reading the result ports and the observation port (R62 to R66) -/

namespace Sys2Proof.Machine

/-- A list is read whole under a length field wide enough for it. -/
theorem take_ofNat_length {w : Nat} {m : List Byte} (h : m.length < 2 ^ w) :
    m.take (BitVec.ofNat w m.length).toNat = m := by
  rw [BitVec.toNat_ofNat, Nat.mod_eq_of_lt h, List.take_length]

theorem AcceptOutcome.read_ports {o : AcceptOutcome} (h : (Response.accept o).wf = true) : o.ports.read = .ok o := by
  cases o with
  | waiting => rfl
  | rejected r => cases r; rfl
  | complete m =>
    have hlen : m.length < 2 ^ 8 := Nat.lt_succ_of_le (Response.wf_complete_iff.mp h).2
    have hread : (AcceptOutcome.complete m).ports.read = .ok (.complete (m.take (BitVec.ofNat 8 m.length).toNat)) := rfl
    rw [hread, take_ofNat_length hlen]

theorem EncResult.read_ports {r : EncResult} (h : (Response.encode r).wf = true) : r.ports.read = .ok r := by
  cases r with
  | error e => cases e <;> rfl
  | ok f =>
    have hlen : f.length < 2 ^ 9 := Nat.lt_of_le_of_lt (Response.wf_frame_iff.mp h).2 (by decide)
    have hread : (EncResult.ok f).ports.read = .ok (.ok (f.take (BitVec.ofNat 9 f.length).toNat)) := rfl
    rw [hread, take_ofNat_length hlen]

theorem ParserState.ofCode_eq_ok_iff (c : BitVec 3) (v : ParserState) : ParserState.ofCode c = .ok v ↔ v.code = c := by
  revert c
  cases v <;> decide

theorem ParserState.ofCode_unheld (c : BitVec 3) (h : 5 ≤ c.toNat) :
    ParserState.ofCode c = .error (.unheldStateCode c) := by
  revert c
  decide

/-- Settles O49: well-formed lists fit their length fields, and the undriven codes pass every test of the readers. -/
theorem resultPortsReadBack : Obligations.ResultPortsReadBack := by
  refine ⟨fun _ => AcceptOutcome.read_ports, fun _ => EncResult.read_ports, fun q h => ?outcome, fun q h hr => ?reason,
    fun q h => ?status, ParserState.ofCode_eq_ok_iff, ParserState.ofCode_unheld⟩
  case outcome => simp [AcceptPorts.read, h]
  case reason => simp [AcceptPorts.read, h, hr]
  case status => simp [EncodePorts.read, h]

end Sys2Proof.Machine

/-! ### The parser fed a frame (R84 to R94, R98) -/

namespace Sys2Proof.Machine

theorem Parser.feed_cons_of_accept_eq {p q : Parser} {b : Byte} {o : AcceptOutcome} (h : p.accept b = (q, o))
    (bs : List Byte) : p.feed (b :: bs) = ((q.feed bs).1, o :: (q.feed bs).2) := by
  rw [Parser.feed_cons, h]

/-- The payload bytes still missing take the parser to the CHK position, whatever they are. -/
theorem Parser.feed_payload {p : Parser} {bs : List Byte} (hst : p.st = .awaitingPayload) (hne : bs ≠ [])
    (hlen : p.buf.length + bs.length = p.expLen.toNat) :
    p.feed bs = ({ p with st := .awaitingChecksum, buf := p.buf ++ bs, acc := p.acc + sum8 bs },
      List.replicate bs.length .waiting) := by
  induction bs generalizing p with
  | nil => exact absurd rfl hne
  | cons b bs ih =>
    rw [List.length_cons] at hlen
    rcases eq_or_ne bs [] with rfl | hbs
    · rw [Parser.feed_cons_of_accept_eq (Parser.accept_lastPayload hst hlen), sum8_singleton]
      rfl
    · have hpos := List.length_pos_of_ne_nil hbs
      have hrest : (p.buf ++ [b]).length + bs.length = p.expLen.toNat := by
        rw [List.length_append, List.length_singleton]
        omega
      rw [Parser.feed_cons_of_accept_eq (Parser.accept_payload hst (by omega)),
        ih (p := { p with buf := p.buf ++ [b], acc := p.acc + b }) hst hbs hrest]
      simp [sum8_cons, BitVec.add_assoc, List.replicate_succ]

section Frame

variable {p : Parser} {m : List Byte}

/-- START, LEN and the payload, fed from `AwaitingStart`. -/
theorem Parser.feed_upToPayload (hst : p.st = .awaitingStart) (h1 : 1 ≤ m.length) (h2 : m.length ≤ 255) :
    p.feed ([0x02#8, BitVec.ofNat 8 m.length] ++ m) =
      (⟨.awaitingChecksum, m, BitVec.ofNat 8 m.length, sum8 m, 0#8⟩, List.replicate (m.length + 2) .waiting) := by
  have hlen := ofNat_length_toNat h2
  have hnz : BitVec.ofNat 8 m.length ≠ 0x00#8 := by
    intro h
    rw [h] at hlen
    simp only [BitVec.toNat_ofNat] at hlen
    omega
  have hm : m ≠ [] := List.ne_nil_of_length_pos h1
  rw [List.cons_append, List.cons_append, List.nil_append,
    Parser.feed_cons_of_accept_eq (Parser.accept_startMarker hst rfl),
    Parser.feed_cons_of_accept_eq (Parser.accept_length rfl hnz), Parser.feed_payload rfl hm (by simp [hlen])]
  simp [List.replicate_succ]

/-- A frame with any CHK byte and any END byte: `Waiting` up to the last byte, which is judged at the END position. -/
theorem Parser.feed_frame (hst : p.st = .awaitingStart) (h1 : 1 ≤ m.length) (h2 : m.length ≤ 255) (chk fin : Byte) :
    p.feed ([0x02#8, BitVec.ofNat 8 m.length] ++ m ++ [chk, fin]) =
      ((Parser.accept ⟨.awaitingEnd, m, BitVec.ofNat 8 m.length, sum8 m, chk⟩ fin).1,
        List.replicate (m.length + 3) .waiting ++
          [(Parser.accept ⟨.awaitingEnd, m, BitVec.ofNat 8 m.length, sum8 m, chk⟩ fin).2]) := by
  rw [Parser.feed_append, Parser.feed_upToPayload hst h1 h2,
    Parser.feed_cons_of_accept_eq (Parser.accept_checksum rfl), Parser.feed_cons, Parser.feed_nil,
    List.replicate_succ' (n := m.length + 2), List.append_assoc]
  rfl

/-- A valid frame completes with its payload (R93). -/
theorem Parser.feed_frameOf (hst : p.st = .awaitingStart) (h1 : 1 ≤ m.length) (h2 : m.length ≤ 255) :
    p.feed (frameOf m) =
      (⟨.awaitingStart, [], 0#8, 0#8, 0#8⟩, List.replicate (m.length + 3) .waiting ++ [.complete m]) := by
  rw [frameOf, Parser.feed_frame hst h1 h2, Parser.accept_complete rfl rfl rfl]

theorem Parser.frameOf_waitsThenEmits (hst : p.st = .awaitingStart) (h1 : 1 ≤ m.length) (h2 : m.length ≤ 255) :
    p.WaitsThenEmits (frameOf m) (.complete m) := by
  rw [Parser.WaitsThenEmits, Parser.feed_frameOf hst h1 h2, frameOf_length]
  rfl

/-- Noise without a START byte leaves the parser where it is (R87). -/
theorem Parser.feed_noise {noise : List Byte} (hst : p.st = .awaitingStart) (h : ∀ b ∈ noise, b ≠ 0x02#8) :
    (p.feed noise).1.st = .awaitingStart ∧ (p.feed noise).2 = List.replicate noise.length .waiting := by
  induction noise generalizing p with
  | nil => exact ⟨hst, rfl⟩
  | cons b bs ih =>
    obtain ⟨hb, hbs⟩ := List.forall_mem_cons.mp h
    rw [Parser.feed_cons_of_accept_eq (Parser.accept_noise hst hb)]
    obtain ⟨hst', hos⟩ := ih (p := ⟨.awaitingStart, [], 0#8, 0#8, 0#8⟩) rfl hbs
    exact ⟨hst', by rw [hos]; rfl⟩

end Frame

/-- Settles O38: the encoder's frame is that of its operand, and the run of its bytes feeds it to the parser. -/
theorem encodedFrameParsesBack : Obligations.EncodedFrameParsesBack := by
  intro e h1 h2 hfits
  refine ⟨frameOf e.ports.encOperand, ?result, fun s reqs rest hst hreqs hp => ?run⟩
  case result => rw [exec_encode, encodePayload_of_fits h1 h2 hfits]
  case run =>
    rw [← e.ports.encOperand_length] at h1 h2
    obtain ⟨t, hrun, hparser, hpending⟩ := trace_acceptsBytes hreqs hp
    rw [Parser.feed_frameOf hst h1 h2] at hrun hparser
    refine ⟨t, ?_, hparser, hpending⟩
    simpa using hrun

/-- Settles O39: either corruption fails the test of row 7, and the rejection leaves the parser in `AwaitingStart`. -/
theorem corruptedChkOrEndIsRejectedThenResynchronises :
    Obligations.CorruptedChkOrEndIsRejectedThenResynchronises := by
  intro p m n chk fin hst h1 h2 hn1 hn2 hbad bad
  have hrow : fin ≠ 0x03#8 ∨ chk ≠ sum8 m := hbad.elim (fun h => .inr h.1) fun h => .inl h.2
  have hfeed : p.feed bad = (⟨.awaitingStart, [], 0#8, 0#8, 0#8⟩,
      List.replicate (m.length + 3) .waiting ++ [.rejected .checksumOrFramingError]) := by
    rw [Parser.feed_frame hst h1 h2, Parser.accept_rejected rfl hrow]
  have hlen : bad.length - 1 = m.length + 3 := by simp [bad]
  refine ⟨?rejected, by rw [hfeed], Parser.frameOf_waitsThenEmits (by rw [hfeed]) hn1 hn2⟩
  case rejected => rw [Parser.WaitsThenEmits, hfeed, hlen]

/-- Settles O40: the noise is waited through in `AwaitingStart`, where the frame is received. -/
theorem noiseThenFrameCompletesOnce : Obligations.NoiseThenFrameCompletesOnce := by
  intro p noise m hst hnoise h1 h2
  obtain ⟨hst', hos⟩ := Parser.feed_noise hst hnoise
  have hlen : (noise ++ frameOf m).length - 1 = noise.length + (m.length + 3) := by simp
  rw [Parser.WaitsThenEmits, Parser.feed_append, Parser.feed_frameOf hst' h1 h2, hos, hlen]
  simp [List.replicate_add]

/-- Settles O43: all three are `sum8` of the payload. -/
theorem threeUnitsComputeOneChecksum : Obligations.ThreeUnitsComputeOneChecksum := by
  intro s m h1 h2 henc hchk hfits
  have hlen : s.ports.encLen.toNat = m.length := by rw [← s.ports.encOperand_length, henc]
  refine ⟨sum8 m, frameOf m, ?chksum, ?encode, frameOf_chk m, ?acc⟩
  case chksum => rw [exec_chksum, hchk]
  case encode =>
    rw [exec_encode, encodePayload_of_fits (by omega) (by omega) (by omega), henc]
  case acc =>
    have hm : m ≠ [] := List.ne_nil_of_length_pos h1
    rw [Parser.feed_payload rfl hm (by simp [ofNat_length_toNat h2])]
    simp

end Sys2Proof.Machine

/-! ### The way back to `AwaitingStart`, by counting (R97) -/

namespace Sys2Proof.Machine

/-- How many bytes a parser past LEN takes until it is back in `AwaitingStart`, by the table of R97; 0 before that. -/
def Parser.bytesLeft (p : Parser) : Nat :=
  match p.st with
  | .awaitingStart => 0
  | .awaitingLength => 0
  | .awaitingPayload => (p.expLen.toNat - p.buf.length) + 2
  | .awaitingChecksum => 2
  | .awaitingEnd => 1

section BytesLeft

variable {p : Parser}

theorem Parser.bytesLeft_payload (hst : p.st = .awaitingPayload) :
    p.bytesLeft = (p.expLen.toNat - p.buf.length) + 2 := by
  rw [Parser.bytesLeft, hst]

theorem Parser.bytesLeft_checksum (hst : p.st = .awaitingChecksum) : p.bytesLeft = 2 := by
  rw [Parser.bytesLeft, hst]

theorem Parser.bytesLeft_end (hst : p.st = .awaitingEnd) : p.bytesLeft = 1 := by
  rw [Parser.bytesLeft, hst]

theorem Parser.bytesLeft_eq_one_iff : p.bytesLeft = 1 ↔ p.st = .awaitingEnd := by
  cases hst : p.st <;> simp [Parser.bytesLeft, hst]

theorem Parser.st_ne_start_of_bytesLeft (h : 0 < p.bytesLeft) : p.st ≠ .awaitingStart := by
  intro hst
  simp [Parser.bytesLeft, hst] at h

/-- Every byte but the last one left brings the parser one byte nearer, whatever its value. -/
theorem Parser.bytesLeft_accept (hinv : p.Inv) (h : 1 < p.bytesLeft) (b : Byte) :
    (p.accept b).1.bytesLeft + 1 = p.bytesLeft := by
  cases hst : p.st with
  | awaitingStart => simp [Parser.bytesLeft, hst] at h
  | awaitingLength => simp [Parser.bytesLeft, hst] at h
  | awaitingPayload =>
    obtain ⟨_, _, hpayload, _⟩ := hinv
    obtain ⟨hlt, _⟩ := hpayload hst
    by_cases hlast : p.buf.length + 1 = p.expLen.toNat
    · rw [Parser.accept_lastPayload hst hlast, Parser.bytesLeft_checksum rfl, Parser.bytesLeft_payload hst]
      omega
    · have hnext : (p.accept b).1.bytesLeft = (p.expLen.toNat - (p.buf ++ [b]).length) + 2 := by
        rw [Parser.accept_payload hst hlast]
        exact Parser.bytesLeft_payload hst
      rw [hnext, Parser.bytesLeft_payload hst, List.length_append, List.length_singleton]
      omega
  | awaitingChecksum =>
    rw [Parser.accept_checksum hst, Parser.bytesLeft_end rfl, Parser.bytesLeft_checksum hst]
  | awaitingEnd =>
    rw [Parser.bytesLeft_end hst] at h
    omega

/-- A non-zero LEN byte leaves as many bytes as it declares, and CHK and END. -/
theorem Parser.bytesLeft_accept_length {l : Byte} (hinv : p.Inv) (hst : p.st = .awaitingLength) (hl : l ≠ 0x00#8) :
    (p.accept l).1.bytesLeft = l.toNat + 2 := by
  obtain ⟨_, hlength, _⟩ := hinv
  obtain ⟨hbuf, _⟩ := hlength hst
  rw [Parser.accept_length hst hl, Parser.bytesLeft_payload rfl, hbuf]
  rfl

/-- The byte at the END position ends the frame, whatever it is. -/
theorem Parser.accept_atEnd (hst : p.st = .awaitingEnd) (b : Byte) :
    (p.accept b).1 = ⟨.awaitingStart, [], 0#8, 0#8, 0#8⟩ := by
  by_cases hok : b = 0x03#8 ∧ p.rxChk = p.acc
  · rw [Parser.accept_complete hst hok.1 hok.2]
  · rw [Parser.accept_rejected hst (not_and_or.mp hok)]

end BytesLeft

section Back

variable {p : Parser} {b : Byte} {bs : List Byte}

theorem Parser.backAtStartAfter_singleton (hst : p.st ≠ .awaitingStart)
    (h : (p.accept b).1 = ⟨.awaitingStart, [], 0#8, 0#8, 0#8⟩) : p.BackAtStartAfter [b] := by
  refine ⟨h, fun k hk => ?_⟩
  obtain rfl : k = 0 := by simpa using hk
  exact hst

theorem Parser.backAtStartAfter_cons (hst : p.st ≠ .awaitingStart) (h : (p.accept b).1.BackAtStartAfter bs) :
    p.BackAtStartAfter (b :: bs) := by
  obtain ⟨hback, hbefore⟩ := h
  refine ⟨hback, fun k hk => ?_⟩
  cases k with
  | zero => exact hst
  | succ k => exact hbefore k (Nat.lt_of_succ_lt_succ hk)

theorem Parser.waitsThenEmits_cons {o : AcceptOutcome} (hne : bs ≠ []) (hw : (p.accept b).2 = .waiting)
    (h : (p.accept b).1.WaitsThenEmits bs o) : p.WaitsThenEmits (b :: bs) o := by
  have hlen : (b :: bs).length - 1 = (bs.length - 1) + 1 := by
    have hpos := List.length_pos_of_ne_nil hne
    rw [List.length_cons]
    omega
  rw [Parser.WaitsThenEmits, Parser.feed_cons, hw, h, hlen, List.replicate_succ, List.cons_append]

/-- A parser past LEN is back after exactly the bytes left, and only the last of them is answered by a verdict. -/
theorem Parser.recovers_of_bytesLeft (hinv : p.Inv) (hleft : 0 < p.bytesLeft) (hlen : bs.length = p.bytesLeft) :
    p.BackAtStartAfter bs ∧ ∃ o, o ≠ .waiting ∧ p.WaitsThenEmits bs o := by
  induction bs generalizing p with
  | nil =>
    rw [← hlen] at hleft
    exact absurd hleft (lt_irrefl 0)
  | cons b bs ih =>
    have hst := Parser.st_ne_start_of_bytesLeft hleft
    rcases eq_or_ne bs [] with rfl | hbs
    · have hend : p.st = .awaitingEnd := Parser.bytesLeft_eq_one_iff.mp hlen.symm
      refine ⟨Parser.backAtStartAfter_singleton hst (Parser.accept_atEnd hend b), (p.accept b).2, ?_, rfl⟩
      rw [Ne, p.accept_waiting_iff b]
      exact not_not_intro hend
    · have hpos := List.length_pos_of_ne_nil hbs
      rw [List.length_cons] at hlen
      have hdown := Parser.bytesLeft_accept hinv (by omega) b
      have hmid : p.st ≠ .awaitingEnd := by
        rw [Ne, ← Parser.bytesLeft_eq_one_iff]
        omega
      obtain ⟨hback, o, ho, hwaits⟩ := ih (hinv.accept b) (by omega) (by omega)
      exact ⟨Parser.backAtStartAfter_cons hst hback, o, ho,
        Parser.waitsThenEmits_cons hbs ((p.accept_waiting_iff b).mpr hmid) hwaits⟩

end Back

/-- Settles O41: a zero LEN is back at once; a non-zero one leaves its own number of bytes and two, and past LEN the bytes left
count down to the one that is judged. -/
theorem truncatedFrameRecoversByCountAlone : Obligations.TruncatedFrameRecoversByCountAlone := by
  intro p bs hinv
  refine ⟨fun hst hbs => ?zeroLen, fun l ds hst hbs hl hds => ?len, fun hst hlen => ⟨?bound, ?payload⟩, fun hst hlen => ?chk,
    fun hst hlen => ?fin⟩
  case zeroLen =>
    subst hbs
    have hrow := Parser.accept_zeroLength (b := 0x00#8) hst rfl
    refine ⟨Parser.backAtStartAfter_singleton (by simp [hst]) (by rw [hrow]), ?_⟩
    rw [Parser.WaitsThenEmits, Parser.feed_cons_of_accept_eq hrow]
    rfl
  case len =>
    subst hbs
    have hrow := Parser.accept_length hst hl
    have hleft := Parser.bytesLeft_accept_length hinv hst hl
    obtain ⟨hback, o, ho, hwaits⟩ := Parser.recovers_of_bytesLeft (hinv.accept l) (by omega) (hds.trans hleft.symm)
    have hmax : l.toNat < 256 := l.isLt
    have hne : ds ≠ [] := List.ne_nil_of_length_pos (by omega)
    refine ⟨?_, Parser.backAtStartAfter_cons (by simp [hst]) hback, o, ho,
      Parser.waitsThenEmits_cons hne (by rw [hrow]) hwaits⟩
    rw [List.length_cons]
    omega
  case bound =>
    have hmax := p.expLen_toNat_le
    omega
  case payload =>
    have hleft := Parser.bytesLeft_payload hst
    exact Parser.recovers_of_bytesLeft hinv (by omega) (hlen.trans hleft.symm)
  case chk =>
    have hleft := Parser.bytesLeft_checksum hst
    exact Parser.recovers_of_bytesLeft hinv (by omega) (hlen.trans hleft.symm)
  case fin =>
    have hleft := Parser.bytesLeft_end hst
    exact Parser.recovers_of_bytesLeft hinv (by omega) (hlen.trans hleft.symm)

end Sys2Proof.Machine

/-! ### The bytes of a frame that the parser holds are bytes it was fed (R84, R93, R98) -/

namespace Sys2Proof.Machine

/-- The wire bytes of the frame being received, as the registers hold them. -/
def Parser.held (p : Parser) : List Byte :=
  match p.st with
  | .awaitingStart => []
  | .awaitingLength => [0x02#8]
  | .awaitingPayload => [0x02#8, p.expLen] ++ p.buf
  | .awaitingChecksum => [0x02#8, p.expLen] ++ p.buf
  | .awaitingEnd => [0x02#8, p.expLen] ++ p.buf ++ [p.rxChk]

/-- A transition adds its byte to what the parser holds, or drops it all. -/
theorem Parser.held_accept {p : Parser} (hinv : p.Inv) (b : Byte) :
    (p.accept b).1.held = [] ∨ (p.accept b).1.held = p.held ++ [b] := by
  obtain ⟨_, hlength, _⟩ := hinv
  rcases p.accept_cases b with ⟨hst, hb, h⟩ | ⟨_, _, h⟩ | ⟨hst, _, h⟩ | ⟨_, _, h⟩ | ⟨hst, _, h⟩ | ⟨hst, _, h⟩ |
    ⟨hst, h⟩ | ⟨_, _, _, h⟩ | ⟨_, _, h⟩ <;> rw [h]
  · exact .inr (by simp [Parser.held, hst, hb])
  · exact .inl rfl
  · obtain ⟨hbuf, _⟩ := hlength hst
    exact .inr (by simp [Parser.held, hst, hbuf])
  · exact .inl rfl
  · exact .inr (by simp [Parser.held, hst])
  · exact .inr (by simp [Parser.held, hst])
  · exact .inr (by simp [Parser.held, hst])
  · exact .inl rfl
  · exact .inl rfl

/-- What the parser holds of a frame is the end of what it has been fed since reset. -/
theorem Parser.held_feed_reset (bs : List Byte) : (Parser.reset.feed bs).1.held <:+ bs := by
  induction bs using List.reverseRecOn with
  | nil => exact List.suffix_rfl
  | append_singleton bs b ih =>
    rw [Parser.feed_append, Parser.feed_cons, Parser.feed_nil]
    rcases Parser.held_accept (Parser.inv_reset.feed bs) b with h | h <;> rw [h]
    · exact List.nil_suffix
    · obtain ⟨before, hbefore⟩ := ih
      exact ⟨before, by rw [← List.append_assoc, hbefore]⟩

/-- In `AwaitingStart` only the state counts: the outcomes to come are those of a parser just reset. -/
theorem Parser.feed_outcomes_of_awaitingStart {p : Parser} (hst : p.st = .awaitingStart) (bs : List Byte) :
    (p.feed bs).2 = (Parser.reset.feed bs).2 := by
  cases bs with
  | nil => rfl
  | cons b bs =>
    have hrow : p.accept b = Parser.reset.accept b := by
      by_cases hb : b = 0x02#8
      · rw [Parser.accept_startMarker hst hb, Parser.accept_startMarker rfl hb]
      · rw [Parser.accept_noise hst hb, Parser.accept_noise rfl hb]
    rw [Parser.feed_cons, Parser.feed_cons, hrow]

/-- The last outcome is that of the last byte, in the state that the bytes before it left. -/
theorem Parser.feed_last_outcome {p : Parser} {bs : List Byte} {os : List AcceptOutcome} {o : AcceptOutcome}
    (h : (p.feed bs).2 = os ++ [o]) : ∃ cs b, bs = cs ++ [b] ∧ ((p.feed cs).1.accept b).2 = o := by
  induction bs using List.reverseRecOn with
  | nil => simp at h
  | append_singleton cs b _ =>
    rw [Parser.feed_append] at h
    exact ⟨cs, b, rfl, List.singleton_inj.mp (List.append_inj' h rfl).2⟩

/-- Settles O42: what the parser holds at the END position is the frame of the payload but for the END byte, and was fed. -/
theorem everyCompleteEndsAFrameOnTheWire : Obligations.EveryCompleteEndsAFrameOnTheWire := by
  intro p bs m os hst h
  rw [Parser.feed_outcomes_of_awaitingStart hst] at h
  obtain ⟨cs, b, rfl, hcomplete⟩ := Parser.feed_last_outcome h
  have hinv := Parser.inv_reset.feed cs
  obtain ⟨before, hheld⟩ := Parser.held_feed_reset cs
  obtain ⟨hend, rfl, hchk, rfl⟩ := Parser.accept_eq_complete hcomplete
  obtain ⟨hlen, hacc⟩ := hinv.buf_of_awaitingEnd hend
  obtain ⟨h1, h2⟩ := hinv.buf_length_of_awaitingEnd hend
  refine ⟨h1, h2, before, ?frame⟩
  case frame =>
    rw [hlen, BitVec.ofNat_toNat, BitVec.setWidth_eq, ← hacc, ← hchk]
    conv_lhs => rw [← hheld]
    simp [Parser.held, hend]

end Sys2Proof.Machine
